-- ==== Sys2Proof/Word.lean ====
section
/-! DEFINITION. The words of BISE: a memory byte, the 64-bit lane that carries an operand, a result or an
address, the 32-bit command word, and the beat the host presents on the command port (spec rules R6, R80). -/

namespace Sys2Proof

/-- A byte of memory (R50). -/
abbrev Byte := BitVec 8

/-- A `u32` operand, and the width `BCW` of the consumed-bit counter (R6, R8). -/
abbrev Word32 := BitVec 32

/-- An operand or result lane, an address, and the window: `XLEN = WINDOW_BITS = 64` (R6). -/
abbrev Word64 := BitVec 64

/-- The command word `CW`, `CWW = 32` (R6, R80). -/
abbrev CmdWord := BitVec 32

/-- The four values of one command beat, presented together on the command port (R80). -/
structure Beat where
  /-- `CW`: opcode in bits 7:0, `C` in bit 8, bits 31:9 reserved (R81). -/
  cw : CmdWord
  op0 : Word64
  op1 : Word64
  op2 : Word64
  deriving DecidableEq, Repr

end Sys2Proof
end

