-- ==== Sys2Proof/Syntax.lean ====
section
/-! DEFINITION. The twenty commands of BISE command set 1.0, one constructor per row of the opcode map (spec rule R85),
each with the typed operands of rule R84. The cursor bit `C` is a field of the three commands that define it (R81). -/

namespace Sys2Proof

/-- A command with its operands assembled (R82, R84). Signed operands (`i32`, `i64`) are held as their
two's-complement bits. -/
inductive Instr where
  /-- HIBIT `v: u32` (R110). -/
  | hibit (v : Word32)
  /-- ISPOW2 `v: u32` (R111). -/
  | ispow2 (v : Word32)
  /-- MASK `bits: u32` (R112). -/
  | mask (bits : Word32)
  /-- CLAMP `v: i64, lo: i32, hi: i32` (R113). -/
  | clamp (v : Word64) (lo hi : Word32)
  /-- CYCLELOG `hashLog: u32, strategy: u32` (R114). -/
  | cyclelog (hashLog strategy : Word32)
  /-- MINTLOG `inputSize: u32, maxSymbolValue: u32` (R115). -/
  | mintlog (inputSize maxSymbolValue : Word32)
  /-- GET24LE `addr: address` (R120). -/
  | get24le (addr : Word64)
  /-- PUT24LE `addr: address, v: u32` (R121). -/
  | put24le (addr : Word64) (v : Word32)
  /-- VERIFY `cond: bool, offset: u64, reason: u16` (R125). -/
  | verify (cond : Bool) (offset : Word64) (reason : BitVec 16)
  /-- CHKARG `cond: bool, reason: u16` (R126). -/
  | chkarg (cond : Bool) (reason : BitVec 16)
  /-- CHKSTATE `cond: bool, reason: u16` (R127). -/
  | chkstate (cond : Bool) (reason : BitVec 16)
  /-- CHKPOS `start: i64, end: i64, size: i64` (R128). -/
  | chkpos (start stop size : Word64)
  /-- INIT `start: address, end: address` (R135). -/
  | init (start stop : Word64)
  /-- PEEK, `C`, `window: u64, bc: u32, n: u32`; with `C = 1` the first two are ignored (R145). -/
  | peek (c : Bool) (window : Word64) (bc n : Word32)
  /-- PEEKF, `C`, `window: u64, bc: u32, n: u32`; with `C = 1` the first two are ignored (R146). -/
  | peekf (c : Bool) (window : Word64) (bc n : Word32)
  /-- LOAD, no operands (R155). -/
  | load
  /-- ISEOS, `C`, `startAddress, currentAddress: address, bitsConsumed: u32`; with `C = 1` all three are ignored
  (R156). -/
  | iseos (c : Bool) (startAddress currentAddress : Word64) (bitsConsumed : Word32)
  /-- RDREG `regno: u32` (R170). -/
  | rdreg (regno : Word32)
  /-- WRREG `regno: u32, value: u64` (R171). -/
  | wrreg (regno : Word32) (value : Word64)
  /-- BLKCMP, no operands (R172). -/
  | blkcmp
  deriving DecidableEq, Repr

end Sys2Proof
end

