-- ==== Sys2Proof/WellFormed.lean ====
section
/-! DEFINITION. Which commands are written the one way the assembler writes them: an operand that the form ignores is
zero ("The assembler places zero in every ignored lane and ignored bit", spec rule R91). Every operand is otherwise as
wide as its lane type (R82), so it has no other check; ranges are checked by the command itself (R83). -/

namespace Sys2Proof

/-- The operands a cursor form ignores are zero (R84, R91). -/
def wellFormed : Instr → Bool
  | .peek c window bc _ => !c || (window == 0 && bc == 0)
  | .peekf c window bc _ => !c || (window == 0 && bc == 0)
  | .iseos c startAddress currentAddress bitsConsumed =>
      !c || (startAddress == 0 && currentAddress == 0 && bitsConsumed == 0)
  | .hibit _ | .ispow2 _ | .mask _ | .clamp _ _ _ | .cyclelog _ _ | .mintlog _ _ => true
  | .get24le _ | .put24le _ _ => true
  | .verify _ _ _ | .chkarg _ _ | .chkstate _ _ | .chkpos _ _ _ => true
  | .init _ _ | .load => true
  | .rdreg _ | .wrreg _ _ | .blkcmp => true

end Sys2Proof
end

