-- ==== Sys2Proof/Decode.lean ====
section
/-! DEFINITION. From a command beat to a command and back: operand assembly (spec rules R82, R84), the opcode map
(R85), illegal words (R86), and the encoder of the assembler (R91). -/

namespace Sys2Proof

/-! ## Operand assembly (R82): the value a typed operand takes from a lane -/

/-- `u64`, `i64`, address: the whole lane (R82). -/
def takeU64 (l : Word64) : Word64 := l

/-- `u32`, `i32`: bits 31:0 of the lane, the others ignored (R82). -/
def takeU32 (l : Word64) : Word32 := l.setWidth 32

/-- `u16` (a reason code): bits 15:0 of the lane, the others ignored (R82). -/
def takeU16 (l : Word64) : BitVec 16 := l.setWidth 16

/-- `bool`: true iff the lane is not zero (R82). -/
def takeBool (l : Word64) : Bool := l != 0

/-! ## The opcode map (R85) -/

/-- A row of the opcode map: a command word `w` selects it iff `w &&& mask = pattern`; `build` assembles the operands of
the row's command from the `C` bit and the lanes. -/
structure Row where
  pattern : CmdWord
  mask : CmdWord
  build : Bool → Beat → Instr

/-- `w` selects the row (R85). -/
def Row.selects (r : Row) (w : CmdWord) : Bool := (w &&& r.mask) == r.pattern

/-- Numeric utilities, LE24 and checks (R85, R84). -/
def utilityRows : List Row :=
  [ ⟨0x00000010, 0xFFFFFFFF, fun _ b => .hibit (takeU32 b.op0)⟩,
    ⟨0x00000011, 0xFFFFFFFF, fun _ b => .ispow2 (takeU32 b.op0)⟩,
    ⟨0x00000012, 0xFFFFFFFF, fun _ b => .mask (takeU32 b.op0)⟩,
    ⟨0x00000013, 0xFFFFFFFF, fun _ b => .clamp (takeU64 b.op0) (takeU32 b.op1) (takeU32 b.op2)⟩,
    ⟨0x00000014, 0xFFFFFFFF, fun _ b => .cyclelog (takeU32 b.op0) (takeU32 b.op1)⟩,
    ⟨0x00000015, 0xFFFFFFFF, fun _ b => .mintlog (takeU32 b.op0) (takeU32 b.op1)⟩,
    ⟨0x00000020, 0xFFFFFFFF, fun _ b => .get24le (takeU64 b.op0)⟩,
    ⟨0x00000021, 0xFFFFFFFF, fun _ b => .put24le (takeU64 b.op0) (takeU32 b.op1)⟩,
    ⟨0x00000030, 0xFFFFFFFF, fun _ b => .verify (takeBool b.op0) (takeU64 b.op1) (takeU16 b.op2)⟩,
    ⟨0x00000031, 0xFFFFFFFF, fun _ b => .chkarg (takeBool b.op0) (takeU16 b.op2)⟩,
    ⟨0x00000032, 0xFFFFFFFF, fun _ b => .chkstate (takeBool b.op0) (takeU16 b.op2)⟩,
    ⟨0x00000033, 0xFFFFFFFF, fun _ b => .chkpos (takeU64 b.op0) (takeU64 b.op1) (takeU64 b.op2)⟩ ]

/-- Stream and system commands (R85, R84). With `C = 1` the lanes a cursor form ignores are not looked at. -/
def streamRows : List Row :=
  [ ⟨0x00000040, 0xFFFFFFFF, fun _ b => .init (takeU64 b.op0) (takeU64 b.op1)⟩,
    ⟨0x00000041, 0xFFFFFEFF, fun c b =>
      if c then .peek true 0 0 (takeU32 b.op2)
      else .peek false (takeU64 b.op0) (takeU32 b.op1) (takeU32 b.op2)⟩,
    ⟨0x00000042, 0xFFFFFEFF, fun c b =>
      if c then .peekf true 0 0 (takeU32 b.op2)
      else .peekf false (takeU64 b.op0) (takeU32 b.op1) (takeU32 b.op2)⟩,
    ⟨0x00000043, 0xFFFFFFFF, fun _ _ => .load⟩,
    ⟨0x00000044, 0xFFFFFEFF, fun c b =>
      if c then .iseos true 0 0 0
      else .iseos false (takeU64 b.op0) (takeU64 b.op1) (takeU32 b.op2)⟩,
    ⟨0x00000050, 0xFFFFFFFF, fun _ b => .rdreg (takeU32 b.op0)⟩,
    ⟨0x00000051, 0xFFFFFFFF, fun _ b => .wrreg (takeU32 b.op0) (takeU64 b.op1)⟩,
    ⟨0x00000060, 0xFFFFFFFF, fun _ _ => .blkcmp⟩ ]

/-- The opcode map, in the order of R85. -/
def opcodeMap : List Row := utilityRows ++ streamRows

/-- The `C` bit of a command word (R81). -/
def cursorBit (w : CmdWord) : Bool := w.getLsbD 8

/-- Why a command word selects no row (R86). All three end the command the same way. -/
inductive Reject where
  /-- One of the reserved bits 31:9 is set. -/
  | reservedBits
  /-- `OPC` is no opcode of the map. -/
  | unlistedOpcode
  /-- `C = 1` with an opcode that does not define it. -/
  | cursorBitUndefined
  deriving DecidableEq, Repr

/-- The name of the rejection of a word that selects no row (R86). -/
def rejectName (w : CmdWord) : Reject :=
  if w >>> 9 != 0 then .reservedBits
  else if opcodeMap.any (fun r => r.selects (w &&& 0xFF)) then .cursorBitUndefined
  else .unlistedOpcode

/-- Decode a beat: first the command word against the map, only then the operands (R87). -/
def decode (b : Beat) : Except Reject Instr :=
  match opcodeMap.find? (fun r => r.selects b.cw) with
  | some r => .ok (r.build (cursorBit b.cw) b)
  | none => .error (rejectName b.cw)

/-! ## The encoder (R84, R85, R91): zero in every ignored lane and ignored bit -/

/-- A `u32` or `i32` operand in a lane. -/
def laneOfU32 (v : Word32) : Word64 := v.setWidth 64

/-- A `u16` operand in a lane. -/
def laneOfU16 (v : BitVec 16) : Word64 := v.setWidth 64

/-- A `bool` operand in a lane. -/
def laneOfBool (c : Bool) : Word64 := if c then 1 else 0

/-- The command word of an opcode with its `C` bit (R81). -/
def withCursorBit (opc : CmdWord) (c : Bool) : CmdWord := if c then opc ||| 0x100 else opc

/-- The beat the assembler makes for a command (R84, R85, R91). -/
def encode : Instr → Beat
  | .hibit v => ⟨0x10, laneOfU32 v, 0, 0⟩
  | .ispow2 v => ⟨0x11, laneOfU32 v, 0, 0⟩
  | .mask bits => ⟨0x12, laneOfU32 bits, 0, 0⟩
  | .clamp v lo hi => ⟨0x13, v, laneOfU32 lo, laneOfU32 hi⟩
  | .cyclelog hashLog strategy => ⟨0x14, laneOfU32 hashLog, laneOfU32 strategy, 0⟩
  | .mintlog inputSize maxSymbolValue => ⟨0x15, laneOfU32 inputSize, laneOfU32 maxSymbolValue, 0⟩
  | .get24le addr => ⟨0x20, addr, 0, 0⟩
  | .put24le addr v => ⟨0x21, addr, laneOfU32 v, 0⟩
  | .verify cond offset reason => ⟨0x30, laneOfBool cond, offset, laneOfU16 reason⟩
  | .chkarg cond reason => ⟨0x31, laneOfBool cond, 0, laneOfU16 reason⟩
  | .chkstate cond reason => ⟨0x32, laneOfBool cond, 0, laneOfU16 reason⟩
  | .chkpos start stop size => ⟨0x33, start, stop, size⟩
  | .init start stop => ⟨0x40, start, stop, 0⟩
  | .peek c window bc n => ⟨withCursorBit 0x41 c, window, laneOfU32 bc, laneOfU32 n⟩
  | .peekf c window bc n => ⟨withCursorBit 0x42 c, window, laneOfU32 bc, laneOfU32 n⟩
  | .load => ⟨0x43, 0, 0, 0⟩
  | .iseos c startAddress currentAddress bitsConsumed =>
      ⟨withCursorBit 0x44 c, startAddress, currentAddress, laneOfU32 bitsConsumed⟩
  | .rdreg regno => ⟨0x50, laneOfU32 regno, 0, 0⟩
  | .wrreg regno value => ⟨0x51, laneOfU32 regno, value, 0⟩
  | .blkcmp => ⟨0x60, 0, 0, 0⟩

/-- The beat whose command word has the bits `w` (its low `nbits`, the bits above them zero) and whose lanes are zero. -/
def tableBeat (nbits w : Nat) : Beat := ⟨BitVec.ofNat 32 (w % 2 ^ nbits), 0, 0, 0⟩

/-- The command `decode` reads from the word `w` of an opcode-table row of `nbits` bits, with zero lanes. -/
def decodeTableWord (nbits w : Nat) : Option Instr :=
  match decode (tableBeat nbits w) with
  | .ok i => some i
  | .error _ => none

end Sys2Proof
end

