-- ==== Sys2Proof/Config.lean ====
section
/-! DEFINITION. What is fixed for one BISE instance (spec rules R6, R36): the open parameter `MEM_SIZE`, the two
constants the spec fixes at 64, and the one free value of the model. -/

namespace Sys2Proof

/-- The parameter of an instance. `MEM_SIZE` is OPEN, `1 <= MEM_SIZE <= 2^63` (R6, R50), so it is no constant of the
model: it is carried beside the state, no step changes it, and a statement about every state is a statement about
every `MEM_SIZE` (log entry 2). It is held as the address of the last byte, which makes the bound true of every value. -/
structure Config where
  /-- `MEM_SIZE - 1`, the highest valid address. -/
  memTop : Fin (2 ^ 63)
  deriving DecidableEq, Repr

/-- `MEM_SIZE`: valid addresses are `0 .. MEM_SIZE - 1` (R6, R50). -/
def Config.memSize (c : Config) : Nat := c.memTop.val + 1

/-- `FRAME_BITS`, fixed at the document's 64 (R6, decision D32). -/
def Config.frameBits : Nat := 64

/-- `REWIND_UNIT`, fixed at the document's 64 (R6, decision D32). -/
def Config.rewindUnit : Nat := 64

/-- FREE VALUE (R211, log entry 7): how many of its three bytes a PUT24LE that a reset abandons has already written,
"zero, one, two or three". No body: nothing can be proved of its value beyond the bound. The argument is the
state's counter of free values. -/
opaque Config.abandonedPutBytes : Nat → Fin 4

end Sys2Proof
end

