-- ==== Sys2Proof/Machine/State.lean ====
section
/-! DEFINITION. The state of one BISE instance as plain data (spec rules R20 to R38), what the host does to it (R221),
the response beat (R88), the reasons a step can stop, and the state after reset (R38, R210). -/

namespace Sys2Proof.Machine

/-- Memory `MEM` (R35, R50) as the list of the bytes that are not zero, in rising address order; an unlisted address
reads as zero (DESIGN CHOICE, log entry 3). -/
abbrev Memory := List Host.Cell

/-- The five error kinds (R180). -/
inductive ErrKind where
  | malformedInput
  | invalidArgument
  | invalidState
  | indexOutOfRange
  | unsupportedOperation
  deriving DecidableEq, Repr

/-- The ten registers that RDREG and WRREG name (R31). -/
inductive Reg where
  | start
  | endAddr
  | cur
  | bits
  | bc
  | flags
  | errFlags
  | errKind
  | errOff
  | errRsn
  deriving DecidableEq, Repr

/-- A response beat (R88). -/
structure Response where
  /-- `ST`: 0 for success, else the error kind code. -/
  st : BitVec 3
  /-- `FL`: `FLAGS` after the command. -/
  fl : BitVec 4
  res0 : Word64
  res1 : Word64
  deriving DecidableEq, Repr

/-- What the host does to the engine, one interaction at a time (R5, R221). -/
inductive HostInput where
  /-- A command beat (R80). -/
  | command (b : Beat)
  /-- The host writes one byte of memory between commands (R35, R64). -/
  | memWrite (addr : Word64) (v : Byte)
  /-- The reset input, asserted between commands (R210). -/
  | reset
  /-- The reset input, asserted while the command `b` is executing (R211). -/
  | resetDuring (b : Beat)
  deriving DecidableEq, Repr

/-- Why a step stops the machine. No command of BISE does: every rule ends in `raise` or `respond` (R221). -/
inductive Fault where
  /-- Raised by the step on a host memory write at or beyond `MEM_SIZE`, a byte that does not exist (R50). SAFE: the
  model stops where no hardware behaviour is described (log entry 6). -/
  | hostWriteOutsideMemory (addr : Word64)
  deriving DecidableEq, Repr

/-- Why a step has no meaning. -/
inductive Refusal where
  /-- Raised by an arm of `exec` for a command that has no meaning yet; no arm does. SAFE. -/
  | notModelled (mnemonic : String)
  deriving DecidableEq, Repr

/-- The state. The first block is the architectural state of R20; `FLAGS.EOS` is computed, not stored (R26). -/
structure State where
  /-- `START`, register 0 (R21). -/
  start : Word64
  /-- `END`, register 1 (R22). -/
  endAddr : Word64
  /-- `CUR`, register 2 (R23). -/
  cur : Word64
  /-- `BITS`, register 3, the window (R24). -/
  bits : Word64
  /-- `BC`, register 4, the consumed-bit count (R25). -/
  bc : Word32
  /-- `FLAGS.ACT`, a session exists (R26). -/
  act : Bool
  /-- `FLAGS.OVF`, the overflow latch (R26). -/
  ovf : Bool
  /-- `FLAGS.EXH`, the result of the last LOAD (R26). -/
  exh : Bool
  /-- `ERRFLAGS`, register 6, one sticky bit per error kind (R27). -/
  errFlags : BitVec 5
  /-- `ERRKIND`, register 7 (R28). -/
  errKind : BitVec 3
  /-- `ERROFF`, register 8 (R29). -/
  errOff : Word64
  /-- `ERRRSN`, register 9 (R30). -/
  errRsn : BitVec 16
  /-- `MEM`, shared with the host (R35). -/
  mem : Memory
  /-- The response port: the response beat of the last command, none since reset (R88, R94; log entry 5). -/
  response : Option Response
  /-- The host's side: what it will do next, in order (R5, R33; log entry 4). -/
  host : List HostInput
  /-- The parameter `MEM_SIZE` of the instance (R36); no step changes it (log entry 2). -/
  cfg : Config
  /-- The model's own: how many free values have been used (log entry 7). -/
  freeUses : Nat
  deriving DecidableEq, Repr

/-- The machine right after reset (R38, R210). The five cursor registers have no reset value in the spec and hold zero
here (DESIGN CHOICE, log entry 1); memory lists nothing (log entry 3); `MEM_SIZE` is that of the spec's vectors,
`0x100000` (DESIGN CHOICE, log entry 2); the host has presented nothing. -/
def State.reset : State where
  start := 0
  endAddr := 0
  cur := 0
  bits := 0
  bc := 0
  act := false
  ovf := false
  exh := false
  errFlags := 0
  errKind := 0
  errOff := 0
  errRsn := 0
  mem := []
  response := none
  host := []
  cfg := ⟨⟨0xFFFFF, by decide⟩⟩
  freeUses := 0

end Sys2Proof.Machine
end

