-- ==== Sys2Proof/Machine/Flags.lean ====
section
/-! DEFINITION. The flags: `FLAGS` as RDREG and the `FL` field show it, with its computed bit `EOS` (spec rule R26), and
the updates of the stored bits. -/

namespace Sys2Proof.Machine

/-- The document's `isEndOfStream` (R156). -/
def isEndOfStream (startAddress currentAddress : Word64) (bitsConsumed : Word32) : Bool :=
  currentAddress == startAddress && bitsConsumed == 64

/-- `FLAGS.EOS`: `ACT = 1 and CUR = START and BC = 64`, computed (R26). -/
def eosFlag (s : State) : Bool := s.act && isEndOfStream s.start s.cur s.bc

/-- `FLAGS`: bit 0 `ACT`, bit 1 `OVF`, bit 2 `EXH`, bit 3 `EOS` (R26). -/
def flags (s : State) : BitVec 4 :=
  BitVec.ofBool (eosFlag s) ++ BitVec.ofBool s.exh ++ BitVec.ofBool s.ovf ++ BitVec.ofBool s.act

/-- LOAD case 1: `OVF <- 1`, `EXH <- 1` (R155). -/
def latchOverflow (s : State) : State := { s with ovf := true, exh := true }

end Sys2Proof.Machine
end

