-- ==== Sys2Proof/Machine/Ops.lean ====
section
/-! DEFINITION. The named operations over memory and registers, the pseudocode primitives of spec rule R11
(`MemRead`, `MemWrite`, `x[i]`, `respond`, `raise`), delivery of an error as one shared operation (R184), and what the
host does to the engine between commands (R210, R211, R221). -/

namespace Sys2Proof.Machine

/-! ## Arithmetic of the notation (R8, R9, R10) -/

/-- `hb(v)`, the 0-based index of the highest set bit of `v > 0` (R10); no rule evaluates it at 0. -/
def hb (v : Nat) : Nat := Nat.log2 v

/-- `shl64(w, k) = (w * 2^k) mod 2^64`, `0 <= k <= 63` (R9). -/
def shl64 (w : Word64) (k : Nat) : Word64 := w <<< k

/-- `shr64(w, k) = floor(w / 2^k)`, `0 <= k <= 63` (R9). -/
def shr64 (w : Word64) (k : Nat) : Word64 := w >>> k

/-- `zext_64` (R8). -/
def zext64 {n : Nat} (v : BitVec n) : Word64 := v.setWidth 64

/-- The 64-bit two's-complement pattern of an integer in range; `sext_64` of an `i32` held as an integer (R8). -/
def sext64 (v : Int) : Word64 := BitVec.ofInt 64 v

/-- A 0 or 1 result (R89). -/
def boolResult (b : Bool) : Word64 := if b then 1 else 0

/-! ## Memory (R50 to R53) -/

/-- `MEM[a]`; an unlisted byte reads as zero (log entry 3). -/
def Memory.read : Memory → Nat → Byte
  | [], _ => 0
  | c :: m, a => if c.1 = a then c.2 else Memory.read m a

/-- The list with the cell put before the first cell of a higher address. -/
def Memory.insert (c : Host.Cell) : Memory → Memory
  | [] => [c]
  | d :: m => if c.1 < d.1 then c :: d :: m else d :: Memory.insert c m

/-- `MEM[a] <- v`: the cell of `a` is taken out and, unless `v` is what an unlisted byte reads as, put back with `v`. -/
def Memory.write (m : Memory) (a : Nat) (v : Byte) : Memory :=
  let rest := m.filter (fun c => c.1 != a)
  if v = 0 then rest else Memory.insert (a, v) rest

/-- The canonical form: addresses strictly rising, no cell that holds what an unlisted byte reads as. -/
abbrev Memory.wf (m : Memory) : Prop :=
  m.Pairwise (fun c d => c.1 < d.1) ∧ ∀ c ∈ m, c.2 ≠ 0

/-- `sum over k = 0 .. n-1 of MEM[a + k] * 2^(8k)`: the little-endian value of `n` bytes (R51, R52). -/
def Memory.readLE (m : Memory) : Nat → Nat → Nat
  | _, 0 => 0
  | a, n + 1 => (m.read a).toNat + 256 * Memory.readLE m (a + 1) n

/-- `MEM[a + k] <- v[8k+7:8k]` for `k = 0 .. n-1`, in that order (R51, R53). -/
def Memory.writeLE (m : Memory) : Nat → Nat → Nat → Memory
  | _, 0, _ => m
  | a, n + 1, v => Memory.writeLE (m.write a (BitVec.ofNat 8 v)) (a + 1) n (v / 256)

/-- The bounds guard on `[a, a + n)`: `a + n <= MEM_SIZE`, on the numbers, without wrap (R56). -/
def inBounds (s : State) (a n : Nat) : Bool := decide (a + n ≤ s.cfg.memSize)

/-- `MemRead(a, n)`: the guard, then the value; `none` where the guard fails (R52). -/
def memRead (s : State) (a n : Nat) : Option Nat :=
  if inBounds s a n then some (s.mem.readLE a n) else none

/-- `MemWrite(a, n, v)` after the guard of the command's whole footprint (R53, R56). -/
def memWrite (a n v : Nat) (s : State) : State := { s with mem := s.mem.writeLE a n v }

/-! ## Reason codes (R181) -/

def rsnEmpty : BitVec 16 := 0x0001
def rsnNoMark : BitVec 16 := 0x0002
def rsnHibitZero : BitVec 16 := 0x0010
def rsnMaskRange : BitVec 16 := 0x0011
def rsnClampOrder : BitVec 16 := 0x0012
def rsnMintlSize : BitVec 16 := 0x0013
def rsnMintlSym : BitVec 16 := 0x0014
def rsnStrategy : BitVec 16 := 0x0015
def rsnPeekBc : BitVec 16 := 0x0016
def rsnPeekN : BitVec 16 := 0x0017
def rsnRegNum : BitVec 16 := 0x0018
def rsnRegRo : BitVec 16 := 0x0019
def rsnNoSession : BitVec 16 := 0x0020
def rsnOverflowed : BitVec 16 := 0x0021
def rsnPosStart : BitVec 16 := 0x0030
def rsnPosEnd : BitVec 16 := 0x0031
def rsnMemRange : BitVec 16 := 0x0032
def rsnUnsupportedStrategy : BitVec 16 := 0x0040
def rsnIllegalEncoding : BitVec 16 := 0x0041

/-! ## The two ends of a command (R11) -/

/-- The code of an error kind: `ST` and `ERRKIND` (R180). -/
def errCode : ErrKind → BitVec 3
  | .malformedInput => 1
  | .invalidArgument => 2
  | .invalidState => 3
  | .indexOutOfRange => 4
  | .unsupportedOperation => 5

/-- The sticky bit of an error kind, bit `code - 1` of `ERRFLAGS` (R27, R180). -/
def stickyBit : ErrKind → BitVec 5
  | .malformedInput => 0b00001
  | .invalidArgument => 0b00010
  | .invalidState => 0b00100
  | .indexOutOfRange => 0b01000
  | .unsupportedOperation => 0b10000

/-- The offset an error records: only MalformedInput carries one, the others record 0 (R11, R184). -/
def recordedOffset : ErrKind → Word64 → Word64
  | .malformedInput, offset => offset
  | .invalidArgument, _ | .invalidState, _ | .indexOutOfRange, _ | .unsupportedOperation, _ => 0

/-- `respond(r0, r1)`: the command ends without error; `FL` is `FLAGS` after it (R11, R88). -/
def respond (r0 r1 : Word64) (s : State) : State :=
  { s with response := some { st := 0, fl := flags s, res0 := r0, res1 := r1 } }

/-- `raise Kind(offset, reason)`: TAKING AN ERROR (R184). Nothing changes but the error-capture registers, and the
response carries the kind, the offset and the reason. There is no handler and so no return (R188). -/
def raise (k : ErrKind) (offset : Word64) (reason : BitVec 16) (s : State) : State :=
  { s with
    errFlags := s.errFlags ||| stickyBit k
    errKind := errCode k
    errOff := recordedOffset k offset
    errRsn := reason
    response := some
      { st := errCode k, fl := flags s, res0 := recordedOffset k offset, res1 := zext64 reason } }

/-- What an illegal command word does, whatever its name: `UnsupportedOperation(0, RSN_ILLEGAL_ENCODING)` (R86). -/
def illegalCommand (s : State) : State := raise .unsupportedOperation 0 rsnIllegalEncoding s

/-! ## Registers (R31) -/

/-- The register that a number names; 10 and above name none (R31). -/
def regOfNumber (r : Word32) : Option Reg :=
  match r.toNat with
  | 0 => some .start
  | 1 => some .endAddr
  | 2 => some .cur
  | 3 => some .bits
  | 4 => some .bc
  | 5 => some .flags
  | 6 => some .errFlags
  | 7 => some .errKind
  | 8 => some .errOff
  | 9 => some .errRsn
  | _ => none

/-- The cursor registers, `START`, `END`, `CUR`, `BITS`, `BC`: readable only in a session (R31). -/
def isCursorReg : Reg → Bool
  | .start | .endAddr | .cur | .bits | .bc => true
  | .flags | .errFlags | .errKind | .errOff | .errRsn => false

/-- `zext_64(x[r])` (R31, R170). -/
def readReg (r : Reg) (s : State) : Word64 :=
  match r with
  | .start => s.start
  | .endAddr => s.endAddr
  | .cur => s.cur
  | .bits => s.bits
  | .bc => zext64 s.bc
  | .flags => zext64 (flags s)
  | .errFlags => zext64 s.errFlags
  | .errKind => zext64 s.errKind
  | .errOff => s.errOff
  | .errRsn => zext64 s.errRsn

/-- `BC <- v` (R25, R171). -/
def writeBc (v : Word32) (s : State) : State := { s with bc := v }

/-- `ERRFLAGS <- ERRFLAGS & ~v`: write one to clear (R27, R171). -/
def clearErrFlags (v : BitVec 5) (s : State) : State := { s with errFlags := s.errFlags &&& ~~~v }

/-- The commit of INIT: the whole cursor and the stored flags of a new session (R135 step 5). -/
def commitSession (start endAddr cur bits : Word64) (bc : Word32) (s : State) : State :=
  { s with
    start := start, endAddr := endAddr, cur := cur, bits := bits, bc := bc
    act := true, ovf := false, exh := false }

/-- The register writes of LOAD cases 2 and 3: `CUR`, `BITS`, `BC` and `EXH` (R155). -/
def refill (cur bits : Word64) (bc : Word32) (exh : Bool) (s : State) : State :=
  { s with cur := cur, bits := bits, bc := bc, exh := exh }

/-! ## The host between commands (R35, R210, R211, R221) -/

/-- The host writes a byte of memory; a byte at or beyond `MEM_SIZE` does not exist (R50; log entry 6). -/
def hostWrite (addr : Word64) (v : Byte) (s : State) : Host.Outcome State Fault Refusal :=
  if inBounds s addr.toNat 1 then .next { s with mem := s.mem.write addr.toNat v }
  else .fault (.hostWriteOutsideMemory addr)

/-- The reset input (R210): every register of the engine as after reset, memory untouched, no response outstanding. -/
def resetEngine (s : State) : State :=
  { State.reset with mem := s.mem, host := s.host, cfg := s.cfg, freeUses := s.freeUses }

/-- Memory after a reset has abandoned a command: of a PUT24LE that passed its guard the first `k` of its three bytes
may have been written, `k` a free value (R211; log entry 7); no other command writes memory. -/
def abandonedWrites (i : Instr) (k : Fin 4) (s : State) : State :=
  match i with
  | .put24le a v => if inBounds s a.toNat 3 then memWrite a.toNat k.val v.toNat s else s
  | .hibit _ | .ispow2 _ | .mask _ | .clamp _ _ _ | .cyclelog _ _ | .mintlog _ _ | .get24le _ | .verify _ _ _
  | .chkarg _ _ | .chkstate _ _ | .chkpos _ _ _ | .init _ _ | .peek _ _ _ _ | .peekf _ _ _ _ | .load
  | .iseos _ _ _ _ | .rdreg _ | .wrreg _ _ | .blkcmp => s

/-- Count one use of a free value. -/
def useFreeValue (s : State) : State := { s with freeUses := s.freeUses + 1 }

end Sys2Proof.Machine
end

