-- ==== Sys2Proof/Machine/Checks.lean ====
section
/-! DEFINITION. The validation commands VERIFY, CHKARG, CHKSTATE and CHKPOS (spec rules R125 to R129). They read and
write no cursor register, no flag and no memory. -/

namespace Sys2Proof.Machine

/-- VERIFY: the host's offset and reason are passed through (R125). -/
def execVerify (cond : Bool) (offset : Word64) (reason : BitVec 16) (s : State) :
    Host.Outcome State Fault Refusal :=
  if cond then .next (respond 0 0 s) else .next (raise .malformedInput offset reason s)

/-- CHKARG (R126). -/
def execChkarg (cond : Bool) (reason : BitVec 16) (s : State) : Host.Outcome State Fault Refusal :=
  if cond then .next (respond 0 0 s) else .next (raise .invalidArgument 0 reason s)

/-- CHKSTATE (R127). -/
def execChkstate (cond : Bool) (reason : BitVec 16) (s : State) : Host.Outcome State Fault Refusal :=
  if cond then .next (respond 0 0 s) else .next (raise .invalidState 0 reason s)

/-- CHKPOS on signed operands; `start` is tested first (R128). -/
def execChkpos (start stop size : Word64) (s : State) : Host.Outcome State Fault Refusal :=
  if start.toInt < 0 ∨ size.toInt < start.toInt then .next (raise .indexOutOfRange 0 rsnPosStart s)
  else if stop.toInt < 0 ∨ size.toInt < stop.toInt ∨ stop.toInt < start.toInt then
    .next (raise .indexOutOfRange 0 rsnPosEnd s)
  else .next (respond 0 0 s)

end Sys2Proof.Machine
end

