-- ==== Sys2Proof/Machine/Le24.lean ====
section
/-! DEFINITION. The little-endian 24-bit commands GET24LE and PUT24LE (spec rules R120 to R122). Each tests its whole
footprint of three bytes before its first access (R56), so its two accesses cannot fail the guard. -/

namespace Sys2Proof.Machine

/-- GET24LE: a 2-byte read and a 1-byte read (R120). -/
def execGet24le (addr : Word64) (s : State) : Host.Outcome State Fault Refusal :=
  if inBounds s addr.toNat 3 then
    let lo := s.mem.readLE addr.toNat 2
    let hi := s.mem.readLE (addr.toNat + 2) 1
    .next (respond (BitVec.ofNat 64 (lo + hi * 2 ^ 16)) 0 s)
  else .next (raise .indexOutOfRange 0 rsnMemRange s)

/-- PUT24LE: a 2-byte write of `v[15:0]` and a 1-byte write of `v[23:16]`; `v[31:24]` is dropped (R121). -/
def execPut24le (addr : Word64) (v : Word32) (s : State) : Host.Outcome State Fault Refusal :=
  if inBounds s addr.toNat 3 then
    let s₁ := memWrite addr.toNat 2 (v.toNat % 2 ^ 16) s
    let s₂ := memWrite (addr.toNat + 2) 1 (v.toNat / 2 ^ 16 % 2 ^ 8) s₁
    .next (respond 0 0 s₂)
  else .next (raise .indexOutOfRange 0 rsnMemRange s)

end Sys2Proof.Machine
end

