-- ==== Sys2Proof/Machine/Numeric.lean ====
section
/-! DEFINITION. The numeric utility commands HIBIT, ISPOW2, MASK, CLAMP, CYCLELOG and MINTLOG (spec rules R110 to
R116). None reads or writes a cursor register, a flag or memory. -/

namespace Sys2Proof.Machine

/-- HIBIT (R110). -/
def execHibit (v : Word32) (s : State) : Host.Outcome State Fault Refusal :=
  if v.toNat = 0 then .next (raise .invalidArgument 0 rsnHibitZero s)
  else .next (respond (BitVec.ofNat 64 (hb v.toNat)) 0 s)

/-- ISPOW2 (R111). -/
def execIspow2 (v : Word32) (s : State) : Host.Outcome State Fault Refusal :=
  .next (respond (boolResult (v != 0 && (v &&& (v - 1)) == 0)) 0 s)

/-- MASK (R112). -/
def execMask (bits : Word32) (s : State) : Host.Outcome State Fault Refusal :=
  if 31 < bits.toNat then .next (raise .invalidArgument 0 rsnMaskRange s)
  else .next (respond (BitVec.ofNat 64 (2 ^ bits.toNat - 1)) 0 s)

/-- CLAMP, comparisons on the signed values (R113). -/
def execClamp (v : Word64) (lo hi : Word32) (s : State) : Host.Outcome State Fault Refusal :=
  if hi.toInt < lo.toInt then .next (raise .invalidArgument 0 rsnClampOrder s)
  else
    let r := if v.toInt < lo.toInt then lo.toInt else if hi.toInt < v.toInt then hi.toInt else v.toInt
    .next (respond (sext64 r) 0 s)

/-- CYCLELOG: codes 0 to 4 are the hash-chain family, 5 to 7 the binary-tree family (R114). -/
def execCyclelog (hashLog strategy : Word32) (s : State) : Host.Outcome State Fault Refusal :=
  if 7 < strategy.toNat then .next (raise .invalidArgument 0 rsnStrategy s)
  else
    let r := if 5 ≤ strategy.toNat then hashLog - 1 else hashLog
    .next (respond (zext64 r) 0 s)

/-- MINTLOG, the size check first (R115). -/
def execMintlog (inputSize maxSymbolValue : Word32) (s : State) : Host.Outcome State Fault Refusal :=
  if inputSize.toNat ≤ 1 then .next (raise .invalidArgument 0 rsnMintlSize s)
  else if maxSymbolValue.toNat = 0 then .next (raise .invalidArgument 0 rsnMintlSym s)
  else
    let a := hb (inputSize.toNat - 1) + 1
    let b := hb maxSymbolValue.toNat + 2
    .next (respond (BitVec.ofNat 64 (min a b)) 0 s)

end Sys2Proof.Machine
end

