-- ==== Sys2Proof/Machine/Operands.lean ====
section
/-! DEFINITION. The operand forms that depend on the state: the stream operands of PEEK, PEEKF and ISEOS come from the
lanes (`C = 0`) or from the cursor registers (`C = 1`), which hold a value only in a session (spec rules R81, R147,
R156). The typed value of a lane (R82) is taken by `Sys2Proof.Decode`. -/

namespace Sys2Proof.Machine

/-- Window and count of a peek: the lanes, or `BITS` and `BC`; `none` for the cursor form without a session (R147). -/
def peekOperands (c : Bool) (window : Word64) (bc : Word32) (s : State) : Option (Word64 × Word32) :=
  if c then (if s.act then some (s.bits, s.bc) else none) else some (window, bc)

/-- Start, current address and count of ISEOS: the lanes, or `START`, `CUR`, `BC`; `none` for the cursor form without
a session (R156). -/
def eosOperands (c : Bool) (startAddress currentAddress : Word64) (bitsConsumed : Word32) (s : State) :
    Option (Word64 × Word64 × Word32) :=
  if c then (if s.act then some (s.start, s.cur, s.bc) else none)
  else some (startAddress, currentAddress, bitsConsumed)

end Sys2Proof.Machine
end

