-- ==== Sys2Proof/Machine/Stream.lean ====
section
/-! DEFINITION. The stream commands INIT (spec rules R135 to R140), PEEK and PEEKF (R145 to R149), LOAD and ISEOS (R155
to R161). -/

namespace Sys2Proof.Machine

/-! ## INIT -/

/-- Step 3 of INIT: `FRAME_BITS - (hb(last) + 1)` (R135, R136). -/
def initialCount (last : Byte) : Nat := Config.frameBits - (hb last.toNat + 1)

/-- Steps 4 and 5 of INIT over a range of `size >= 1` bytes whose last byte `last` is not zero: the window is the last
eight bytes, or in the tail case (fewer than eight) the whole range with zeros above it (R135, R137). -/
def startSession (start stop : Word64) (last : Byte) (s : State) : State :=
  let size := stop.toNat - start.toNat
  if 8 ≤ size then
    let cur := stop - 8
    commitSession start stop cur (BitVec.ofNat 64 (s.mem.readLE cur.toNat 8))
      (BitVec.ofNat 32 (initialCount last)) s
  else
    commitSession start stop start (BitVec.ofNat 64 (s.mem.readLE start.toNat size))
      (BitVec.ofNat 32 (initialCount last + (8 - size) * 8)) s

/-- INIT: the empty test, the bounds guard, the end-mark test, then the new session (R135). -/
def execInit (start stop : Word64) (s : State) : Host.Outcome State Fault Refusal :=
  if stop.toNat ≤ start.toNat then .next (raise .malformedInput start rsnEmpty s)
  else if s.cfg.memSize < stop.toNat then .next (raise .indexOutOfRange 0 rsnMemRange s)
  else
    let last := s.mem.read (stop.toNat - 1)
    if last = 0 then .next (raise .malformedInput stop rsnNoMark s)
    else
      let t := startSession start stop last s
      .next (respond t.bits (zext64 t.bc) t)

/-! ## PEEK and PEEKF -/

/-- The value of PEEK for `bc <= 63`, `n <= 63`: three shifts, each below 64 (R145). -/
def peekValue (w : Word64) (bc n : Nat) : Word64 := shr64 (shr64 (shl64 w bc) 1) (63 - n)

/-- The value of PEEKF for `bc <= 63`, `1 <= n <= 64` (R146). -/
def peekfValue (w : Word64) (bc n : Nat) : Word64 := shr64 (shl64 w bc) (64 - n)

/-- PEEK (R145). -/
def execPeek (c : Bool) (window : Word64) (bc n : Word32) (s : State) : Host.Outcome State Fault Refusal :=
  match peekOperands c window bc s with
  | none => .next (raise .invalidState 0 rsnNoSession s)
  | some (w, b) =>
    if 63 < b.toNat then .next (raise .invalidArgument 0 rsnPeekBc s)
    else if 63 < n.toNat then .next (raise .invalidArgument 0 rsnPeekN s)
    else .next (respond (peekValue w b.toNat n.toNat) 0 s)

/-- PEEKF (R146). -/
def execPeekf (c : Bool) (window : Word64) (bc n : Word32) (s : State) : Host.Outcome State Fault Refusal :=
  match peekOperands c window bc s with
  | none => .next (raise .invalidState 0 rsnNoSession s)
  | some (w, b) =>
    if 63 < b.toNat then .next (raise .invalidArgument 0 rsnPeekBc s)
    else if n.toNat < 1 ∨ 64 < n.toNat then .next (raise .invalidArgument 0 rsnPeekN s)
    else .next (respond (peekfValue w b.toNat n.toNat) 0 s)

/-! ## LOAD and ISEOS -/

/-- The end of LOAD: the new window and count are the results (R155). -/
def respondWindow (s : State) : State := respond s.bits (zext64 s.bc) s

/-- `(BC - bytes * REWIND_UNIT) mod 2^32`, on the integers (R155, R158). -/
def rebasedCount (bc : Word32) (bytes : Int) : Word32 :=
  BitVec.ofInt 32 ((bc.toNat : Int) - bytes * (Config.rewindUnit : Int))

/-- `MemRead(cur, 8)` and the register writes of a moving LOAD. In a session the read passes the guard (R159); where
`MemRead` fails its guard it raises, before any write (R52, R56; DEDUCED, log entry 8). -/
def reload (cur : Word64) (bc : Word32) (exh : Bool) (s : State) : State :=
  match memRead s cur.toNat 8 with
  | some w => respondWindow (refill cur (BitVec.ofNat 64 w) bc exh s)
  | none => raise .indexOutOfRange 0 rsnMemRange s

/-- Case 3 of LOAD (R155): `BC <= 64` and `CUR` is not `START`; `bytes` is `floor(BC / 8)`. -/
def loadMoving (s : State) : State :=
  let bytes := s.bc.toNat / 8
  if s.start.toNat + 8 ≤ s.cur.toNat then
    if 0 < bytes then reload (s.cur - BitVec.ofNat 64 bytes) (BitVec.ofNat 32 (s.bc.toNat % 8)) false s
    else respondWindow (refill s.cur s.bits (BitVec.ofNat 32 (s.bc.toNat % 8)) false s)
  else if s.cur.toNat < s.start.toNat + bytes then
    reload s.start (rebasedCount s.bc ((s.cur.toNat : Int) - s.start.toNat)) true s
  else reload (s.cur - BitVec.ofNat 64 bytes) (rebasedCount s.bc bytes) false s

/-- LOAD, an ordered set of cases (R155). -/
def execLoad (s : State) : Host.Outcome State Fault Refusal :=
  if s.act = false then .next (raise .invalidState 0 rsnNoSession s)
  else if 64 < s.bc.toNat then .next (respondWindow (latchOverflow s))
  else if s.cur = s.start then .next (respondWindow (refill s.cur s.bits s.bc true s))
  else .next (loadMoving s)

/-- ISEOS (R156). -/
def execIseos (c : Bool) (startAddress currentAddress : Word64) (bitsConsumed : Word32) (s : State) :
    Host.Outcome State Fault Refusal :=
  match eosOperands c startAddress currentAddress bitsConsumed s with
  | none => .next (raise .invalidState 0 rsnNoSession s)
  | some (a, p, b) => .next (respond (boolResult (isEndOfStream a p b)) 0 s)

end Sys2Proof.Machine
end

