-- ==== Sys2Proof/Machine/System.lean ====
section
/-! DEFINITION. The system commands RDREG, WRREG and BLKCMP (spec rules R170 to R172). -/

namespace Sys2Proof.Machine

/-- RDREG: the number check, then the session check of a cursor register (R170). -/
def execRdreg (regno : Word32) (s : State) : Host.Outcome State Fault Refusal :=
  match regOfNumber regno with
  | none => .next (raise .invalidArgument 0 rsnRegNum s)
  | some r =>
    if isCursorReg r && !s.act then .next (raise .invalidState 0 rsnNoSession s)
    else .next (respond (readReg r s) 0 s)

/-- WRREG: only `BC` and `ERRFLAGS` are writable (R171). -/
def execWrreg (regno : Word32) (value : Word64) (s : State) : Host.Outcome State Fault Refusal :=
  match regOfNumber regno with
  | none => .next (raise .invalidArgument 0 rsnRegNum s)
  | some .bc =>
    if s.act = false then .next (raise .invalidState 0 rsnNoSession s)
    else if s.ovf = true then .next (raise .invalidState 0 rsnOverflowed s)
    else .next (respond 0 0 (writeBc (value.setWidth 32) s))
  | some .errFlags => .next (respond 0 0 (clearErrFlags (value.setWidth 5) s))
  | some .start | some .endAddr | some .cur | some .bits | some .flags | some .errKind | some .errOff
  | some .errRsn => .next (raise .invalidArgument 0 rsnRegRo s)

/-- BLKCMP, the unsupported block-compressor slot: always UnsupportedOperation (R172). -/
def execBlkcmp (s : State) : Host.Outcome State Fault Refusal :=
  .next (raise .unsupportedOperation 0 rsnUnsupportedStrategy s)

end Sys2Proof.Machine
end

