-- ==== Sys2Proof/Machine/Dispatch.lean ====
section
/-! DEFINITION. One arm per command: the meaning of each (spec rule R85). -/

namespace Sys2Proof.Machine

/-- The execution of one command, from its beat to its response (R5). -/
def exec (i : Instr) (s : State) : Host.Outcome State Fault Refusal :=
  match i with
  | .hibit v => Sys2Proof.Machine.execHibit v s
  | .ispow2 v => Sys2Proof.Machine.execIspow2 v s
  | .mask bits => Sys2Proof.Machine.execMask bits s
  | .clamp v lo hi => Sys2Proof.Machine.execClamp v lo hi s
  | .cyclelog hashLog strategy => Sys2Proof.Machine.execCyclelog hashLog strategy s
  | .mintlog inputSize maxSymbolValue => Sys2Proof.Machine.execMintlog inputSize maxSymbolValue s
  | .get24le addr => Sys2Proof.Machine.execGet24le addr s
  | .put24le addr v => Sys2Proof.Machine.execPut24le addr v s
  | .verify cond offset reason => Sys2Proof.Machine.execVerify cond offset reason s
  | .chkarg cond reason => Sys2Proof.Machine.execChkarg cond reason s
  | .chkstate cond reason => Sys2Proof.Machine.execChkstate cond reason s
  | .chkpos start stop size => Sys2Proof.Machine.execChkpos start stop size s
  | .init start stop => Sys2Proof.Machine.execInit start stop s
  | .peek c window bc n => Sys2Proof.Machine.execPeek c window bc n s
  | .peekf c window bc n => Sys2Proof.Machine.execPeekf c window bc n s
  | .load => Sys2Proof.Machine.execLoad s
  | .iseos c startAddress currentAddress bitsConsumed => Sys2Proof.Machine.execIseos c startAddress currentAddress bitsConsumed s
  | .rdreg regno => Sys2Proof.Machine.execRdreg regno s
  | .wrreg regno value => Sys2Proof.Machine.execWrreg regno value s
  | .blkcmp => Sys2Proof.Machine.execBlkcmp s

end Sys2Proof.Machine
end

