-- ==== Sys2Proof/Machine/Port.lean ====
section
/-! DEFINITION. What each interaction of the host does to the engine (spec rules R5, R80, R211, R221): the command
port, the host's writes to memory and the reset input. -/

namespace Sys2Proof.Machine

/-- The engine takes a command beat: decode first, then run (R87); an illegal word raises (R86). -/
def runCommand (b : Beat) (s : State) : Host.Outcome State Fault Refusal :=
  match decode b with
  | .ok i => exec i s
  | .error _ => .next (illegalCommand s)

/-- The reset input while the command `b` is executing (R211): the command is abandoned, no response is issued, the
registers take the reset state, and of a PUT24LE a free number of bytes may have been written. -/
def resetDuringCommand (b : Beat) (s : State) : State :=
  match decode b with
  | .ok i => resetEngine (useFreeValue (abandonedWrites i (Config.abandonedPutBytes s.freeUses) s))
  | .error _ => resetEngine s

/-- One interaction of the host (R221). -/
def takeInput (x : HostInput) (s : State) : Host.Outcome State Fault Refusal :=
  match x with
  | .command b => runCommand b s
  | .memWrite a v => hostWrite a v s
  | .reset => .next (resetEngine s)
  | .resetDuring b => .next (resetDuringCommand b s)

/-- The host's list with the beat of the word `w` of `nbits` bits, lanes zero, put before what it was going to present:
the command port is where BISE gets its next command (R33). -/
def presentWord (nbits w : Nat) (host : List HostInput) : List HostInput := .command (tableBeat nbits w) :: host

end Sys2Proof.Machine
end

