-- ==== Sys2Proof/Machine/Step.lean ====
section
/-! DEFINITION. One step: the host's next interaction (spec rules R5, R221). A step on a command is its whole execution
(R5); with nothing presented the engine is idle and holds its state (R195). -/

namespace Sys2Proof.Machine

/-- One step: the first interaction of the host's list is taken off it and happens. -/
def step (s : State) : Host.Outcome State Fault Refusal :=
  match s.host with
  | [] => .next s
  | x :: rest => takeInput x { s with host := rest }

/-- The word `w` of `nbits` bits with zero lanes is the next command of the host (R33; log entry 4). -/
def State.withFetchWord (s : State) (nbits w : Nat) : State := { s with host := presentWord nbits w s.host }

end Sys2Proof.Machine
end

