-- ==== Sys2Proof/Safety.lean ====
section
/-! DEFINITION. The terms claims are made in: what two states agree on (the frames), the invariant of a BISE instance
(spec rule R32 and the register rules R25 to R30), what it means that the window is a copy of memory (R24, R61), the
stream as bits of memory (R24, R37), and which error kinds a command can end with (R182). -/

namespace Sys2Proof

/-- The twenty-three legal command words, as R85 lists them. -/
def legalWords : List CmdWord :=
  [0x10, 0x11, 0x12, 0x13, 0x14, 0x15, 0x20, 0x21, 0x30, 0x31, 0x32, 0x33, 0x40, 0x41, 0x141, 0x42, 0x142, 0x43,
   0x44, 0x144, 0x50, 0x51, 0x60]

namespace Machine

/-! ## What two states agree on -/

/-- Every byte of memory reads the same. -/
def sameMemory (s t : State) : Prop := ∀ a, t.mem.read a = s.mem.read a

/-- The five cursor registers are the same (R21 to R25). -/
def sameCursor (s t : State) : Prop :=
  t.start = s.start ∧ t.endAddr = s.endAddr ∧ t.cur = s.cur ∧ t.bits = s.bits ∧ t.bc = s.bc

/-- The three stored flags are the same (R26). -/
def sameFlags (s t : State) : Prop := t.act = s.act ∧ t.ovf = s.ovf ∧ t.exh = s.exh

/-- The four error-capture registers are the same (R27 to R30). -/
def sameCapture (s t : State) : Prop :=
  t.errFlags = s.errFlags ∧ t.errKind = s.errKind ∧ t.errOff = s.errOff ∧ t.errRsn = s.errRsn

/-- What is not the engine's own is the same: what the host will do, the parameter and the count of free values. -/
def sameSurroundings (s t : State) : Prop := t.host = s.host ∧ t.cfg = s.cfg ∧ t.freeUses = s.freeUses

/-- The command that led to this state ended without error: its response has `ST = 0` (R88). -/
def succeeded (t : State) : Prop := ∃ r, t.response = some r ∧ r.st = 0

/-- The states differ at most in the five cursor registers. -/
def agreeButCursor (s t : State) : Prop :=
  sameFlags s t ∧ sameCapture s t ∧ t.mem = s.mem ∧ t.response = s.response ∧ sameSurroundings s t

/-! ## The invariant -/

/-- Memory is in its canonical form and lists only bytes that exist (R50). -/
abbrev MemoryInv (s : State) : Prop := s.mem.wf ∧ ∀ c ∈ s.mem, c.1 < s.cfg.memSize

/-- In a session: `START < END <= MEM_SIZE`; in the normal case `START <= CUR <= END - 8`, in the tail case
`CUR = START` (R32). -/
abbrev SessionInv (s : State) : Prop :=
  s.act = true →
    s.start.toNat < s.endAddr.toNat ∧ s.endAddr.toNat ≤ s.cfg.memSize ∧
    (8 ≤ s.endAddr.toNat - s.start.toNat → s.start.toNat ≤ s.cur.toNat ∧ s.cur.toNat + 8 ≤ s.endAddr.toNat) ∧
    (s.endAddr.toNat - s.start.toNat < 8 → s.cur = s.start)

/-- `OVF` and `EXH` are set only in a session; while `OVF` is set, `EXH` is set and `BC` stays above 64 (R26, R157). -/
abbrev OverflowInv (s : State) : Prop :=
  (s.ovf = true → s.exh = true ∧ 64 < s.bc.toNat) ∧ (s.exh = true → s.act = true)

/-- `ERRKIND` is a kind code or 0; no sticky bit is set before an error; only MalformedInput leaves an offset; there is
no reason before an error (R27 to R30). -/
abbrev CaptureInv (s : State) : Prop :=
  s.errKind.toNat ≤ 5 ∧ (s.errFlags ≠ 0 → s.errKind ≠ 0) ∧ (s.errKind ≠ 1 → s.errOff = 0) ∧
  (s.errKind = 0 → s.errRsn = 0)

/-- The invariant of a BISE instance. -/
abbrev EngineInv (s : State) : Prop := MemoryInv s ∧ SessionInv s ∧ OverflowInv s ∧ CaptureInv s

/-! ## The window and the stream -/

/-- Byte `k` of a 64-bit value (R7). -/
def byteOf (w : Word64) (k : Nat) : Byte := w.extractLsb' (8 * k) 8

/-- `w` holds the `n <= 8` bytes of memory from `a` up, and zeros above them (R24, R137). -/
def holdsBytes (m : Memory) (a n : Nat) (w : Word64) : Prop :=
  ∀ k, k < 8 → byteOf w k = if k < n then m.read (a + k) else 0

/-- In a session the window is a copy of memory: of the eight bytes at `CUR`, in the tail case of the whole range (R24,
R61, R137). Software keeps it so by not writing the range (R214). -/
def WindowMatchesMemory (s : State) : Prop :=
  s.act = true → holdsBytes s.mem s.cur.toNat (min 8 (s.endAddr.toNat - s.start.toNat)) s.bits

/-- Bit `p` of memory, bit `p mod 8` of byte `p / 8`: the stream is read from its highest bit down (R24, R51). -/
def streamBit (m : Memory) (p : Nat) : Bool := (m.read (p / 8)).getLsbD (p % 8)

/-- The bit of memory just above the next unread one: `8 * (CUR + 8) - BC` (R24). -/
def streamPosition (s : State) : Nat := 8 * (s.cur.toNat + 8) - s.bc.toNat

/-- What LOAD leaves when it ends: these registers and flags, and a response with the new window and count (R155). -/
def afterLoad (s : State) (cur bits : Word64) (bc : Word32) (exh ovf : Bool) : State :=
  let t := { s with cur := cur, bits := bits, bc := bc, exh := exh, ovf := ovf }
  { t with response := some { st := 0, fl := flags t, res0 := bits, res1 := bc.setWidth 64 } }

/-! ## Errors by command -/

/-- The error kinds a command can end with, the table of R182. -/
def canRaise : Instr → List ErrKind
  | .hibit _ | .mask _ | .clamp _ _ _ | .cyclelog _ _ | .mintlog _ _ => [.invalidArgument]
  | .ispow2 _ => []
  | .get24le _ | .put24le _ _ => [.indexOutOfRange]
  | .verify _ _ _ => [.malformedInput]
  | .chkarg _ _ => [.invalidArgument]
  | .chkstate _ _ => [.invalidState]
  | .chkpos _ _ _ => [.indexOutOfRange]
  | .init _ _ => [.malformedInput, .indexOutOfRange]
  | .peek c _ _ _ | .peekf c _ _ _ => if c then [.invalidArgument, .invalidState] else [.invalidArgument]
  | .load => [.invalidState]
  | .iseos c _ _ _ => if c then [.invalidState] else []
  | .rdreg _ | .wrreg _ _ => [.invalidArgument, .invalidState]
  | .blkcmp => [.unsupportedOperation]

/-- The commands that neither store to memory nor write a cursor register or a flag on any path (R31, R53). -/
def readsOnly : Instr → Bool
  | .hibit _ | .ispow2 _ | .mask _ | .clamp _ _ _ | .cyclelog _ _ | .mintlog _ _ | .get24le _ => true
  | .verify _ _ _ | .chkarg _ _ | .chkstate _ _ | .chkpos _ _ _ => true
  | .peek _ _ _ _ | .peekf _ _ _ _ | .iseos _ _ _ _ | .rdreg _ | .blkcmp => true
  | .put24le _ _ | .init _ _ | .load | .wrreg _ _ => false

/-- The six numeric utility commands (R116). -/
def isNumeric : Instr → Bool
  | .hibit _ | .ispow2 _ | .mask _ | .clamp _ _ _ | .cyclelog _ _ | .mintlog _ _ => true
  | .get24le _ | .put24le _ _ | .verify _ _ _ | .chkarg _ _ | .chkstate _ _ | .chkpos _ _ _ | .init _ _
  | .peek _ _ _ _ | .peekf _ _ _ _ | .load | .iseos _ _ _ _ | .rdreg _ | .wrreg _ _ | .blkcmp => false

end Machine

end Sys2Proof
end

