-- ==== Sys2Proof/Certificates/Slice0/Obligations.lean ====
section
/-! DEFINITION. The statements about BISE left for the provers, each from the rules of the spec its docstring names.
`exec i s` is one command, `runCommand b s` one command beat (illegal words included), `step s` one interaction of the
host. Reason codes and command words are written as the spec's numbers, not by the model's names. -/

open Sys2Proof Sys2Proof.Machine

/-! ## Encoding -/

/-- Derived from R80 to R91: decoding what the assembler makes of a well-formed command gives the command back, with
every operand at every value. -/
def Obligations.DecodeOfEncodeIsTheCommand : Prop :=
  ∀ i : Instr, wellFormed i = true → decode (encode i) = .ok i

/-- Derived from R82, R84, R91: a beat that decodes gives a well-formed command whose assembled beat has the same
command word and decodes to the same command, so nothing the assembler zeroes (ignored lanes and ignored bits) is ever
looked at. -/
def Obligations.DecodedCommandsAreWellFormed : Prop :=
  ∀ (b : Beat) (i : Instr), decode b = .ok i →
    wellFormed i = true ∧ (encode i).cw = b.cw ∧ decode (encode i) = .ok i

/-- Derived from R82: a lane or a lane bit that no operand of the command takes has no effect on decoding. -/
def Obligations.IgnoredLaneBitsHaveNoEffect : Prop :=
  ∀ (w : CmdWord) (x y z x' y' z' : Word64),
    (w ∈ ([0x10, 0x11, 0x12, 0x50] : List CmdWord) → x.setWidth 32 = x'.setWidth 32 →
      decode ⟨w, x, y, z⟩ = decode ⟨w, x', y', z'⟩) ∧
    (w ∈ ([0x14, 0x15] : List CmdWord) → x.setWidth 32 = x'.setWidth 32 → y.setWidth 32 = y'.setWidth 32 →
      decode ⟨w, x, y, z⟩ = decode ⟨w, x', y', z'⟩) ∧
    (w = 0x13 → y.setWidth 32 = y'.setWidth 32 → z.setWidth 32 = z'.setWidth 32 →
      decode ⟨w, x, y, z⟩ = decode ⟨w, x, y', z'⟩) ∧
    (w = 0x20 → decode ⟨w, x, y, z⟩ = decode ⟨w, x, y', z'⟩) ∧
    (w = 0x21 → y.setWidth 32 = y'.setWidth 32 → decode ⟨w, x, y, z⟩ = decode ⟨w, x, y', z'⟩) ∧
    (w = 0x30 → (x = 0 ↔ x' = 0) → z.setWidth 16 = z'.setWidth 16 →
      decode ⟨w, x, y, z⟩ = decode ⟨w, x', y, z'⟩) ∧
    (w ∈ ([0x31, 0x32] : List CmdWord) → (x = 0 ↔ x' = 0) → z.setWidth 16 = z'.setWidth 16 →
      decode ⟨w, x, y, z⟩ = decode ⟨w, x', y', z'⟩) ∧
    (w = 0x40 → decode ⟨w, x, y, z⟩ = decode ⟨w, x, y, z'⟩) ∧
    (w = 0x51 → x.setWidth 32 = x'.setWidth 32 → decode ⟨w, x, y, z⟩ = decode ⟨w, x', y, z'⟩) ∧
    (w ∈ ([0x41, 0x42] : List CmdWord) → y.setWidth 32 = y'.setWidth 32 → z.setWidth 32 = z'.setWidth 32 →
      decode ⟨w, x, y, z⟩ = decode ⟨w, x, y', z'⟩) ∧
    (w ∈ ([0x141, 0x142] : List CmdWord) → z.setWidth 32 = z'.setWidth 32 →
      decode ⟨w, x, y, z⟩ = decode ⟨w, x', y', z'⟩) ∧
    (w = 0x44 → z.setWidth 32 = z'.setWidth 32 → decode ⟨w, x, y, z⟩ = decode ⟨w, x, y, z'⟩) ∧
    (w ∈ ([0x43, 0x144, 0x60] : List CmdWord) → decode ⟨w, x, y, z⟩ = decode ⟨w, x', y', z'⟩)

/-- Derived from R85, R86: a beat decodes exactly when its command word is one of the twenty-three the spec lists. -/
def Obligations.LegalWordsAreTheTwentyThree : Prop :=
  ∀ b : Beat, (∃ i, decode b = .ok i) ↔ b.cw ∈ legalWords

/-- R86: an illegal command word, whatever its lanes, raises `UnsupportedOperation(0, RSN_ILLEGAL_ENCODING)` and changes
no state but the capture registers. -/
def Obligations.IllegalWordRaisesUnsupportedOperation : Prop :=
  ∀ (s : State) (b : Beat), b.cw ∉ legalWords →
    runCommand b s = .next
      { s with
        errFlags := s.errFlags ||| 0b10000, errKind := 5, errOff := 0, errRsn := 0x0041
        response := some { st := 5, fl := flags s, res0 := 0, res1 := 0x0041 } }

/-- Derived from R85, R84: some beats written out from the spec's encodings decode to the commands they stand for. -/
def Obligations.SampleBeatsDecode : Prop :=
  decode ⟨0x00000013, 300, 0, 255⟩ = .ok (.clamp 300 0 255) ∧
  decode ⟨0x00000021, 0x100, 0x12ABCDEF, 0⟩ = .ok (.put24le 0x100 0x12ABCDEF) ∧
  decode ⟨0x00000030, 0, 0x1234, 0x1FFFF⟩ = .ok (.verify false 0x1234 0xFFFF) ∧
  decode ⟨0x00000040, 0x1000, 0x1008, 0⟩ = .ok (.init 0x1000 0x1008) ∧
  decode ⟨0x00000041, 0x8807060504030201, 0x100000038, 8⟩ = .ok (.peek false 0x8807060504030201 56 8) ∧
  decode ⟨0x00000142, 7, 7, 8⟩ = .ok (.peekf true 0 0 8) ∧
  decode ⟨0x00000051, 4, 64, 0⟩ = .ok (.wrreg 4 64) ∧
  decode ⟨0x00000000, 1, 2, 3⟩ = .error .unlistedOpcode ∧
  decode ⟨0x00000143, 1, 2, 3⟩ = .error .cursorBitUndefined ∧
  decode ⟨0x80000010, 1, 2, 3⟩ = .error .reservedBits

/-- Derived from R5, R87 over the host's list of interactions (log entry 4): a step takes the first interaction off
the list and does it; when that is a beat that decodes to a command, the step is the execution of that command. -/
def Obligations.StepRunsTheDecodedCommand : Prop :=
  ∀ (s : State) (x : HostInput) (rest : List HostInput), s.host = x :: rest →
    step s = takeInput x { s with host := rest } ∧
    ∀ (b : Beat) (i : Instr), x = .command b → decode b = .ok i → step s = exec i { s with host := rest }

/-! ## Numeric utilities -/

/-- R110: HIBIT answers the index of the highest set bit, in `0 .. 31`, and raises on 0. -/
def Obligations.HibitReturnsTheHighestSetBit : Prop :=
  (∀ b : Beat, b.cw = 0x10 → decode b = .ok (.hibit (b.op0.setWidth 32))) ∧
  ∀ (v : Word32) (s : State),
    (v = 0 → exec (.hibit v) s = .next (raise .invalidArgument 0 0x0010 s)) ∧
    (v ≠ 0 → ∃ k : Nat, k ≤ 31 ∧ 2 ^ k ≤ v.toNat ∧ v.toNat < 2 ^ (k + 1) ∧
      exec (.hibit v) s = .next (respond (BitVec.ofNat 64 k) 0 s))

/-- R111: ISPOW2 answers 1 exactly when one bit of `v` is set, and never raises. -/
def Obligations.Ispow2TestsForOneSetBit : Prop :=
  (∀ b : Beat, b.cw = 0x11 → decode b = .ok (.ispow2 (b.op0.setWidth 32))) ∧
  ∀ (v : Word32) (s : State),
    ((∃! k, v.getLsbD k = true) → exec (.ispow2 v) s = .next (respond 1 0 s)) ∧
    ((¬ ∃! k, v.getLsbD k = true) → exec (.ispow2 v) s = .next (respond 0 0 s))

/-- R112: MASK answers the all-ones pattern of width `bits <= 31`, and raises beyond. -/
def Obligations.MaskReturnsThePatternOfItsWidth : Prop :=
  (∀ b : Beat, b.cw = 0x12 → decode b = .ok (.mask (b.op0.setWidth 32))) ∧
  ∀ (n : Word32) (s : State),
    (31 < n.toNat → exec (.mask n) s = .next (raise .invalidArgument 0 0x0011 s)) ∧
    (n.toNat ≤ 31 → ∃ r : Word64, r.toNat = 2 ^ n.toNat - 1 ∧ (∀ j, r.getLsbD j = decide (j < n.toNat)) ∧
      exec (.mask n) s = .next (respond r 0 s))

/-- R113: CLAMP answers the signed value nearest to `v` in `[lo, hi]`, sign-extended, and raises when `lo > hi`. -/
def Obligations.ClampSaturatesIntoItsBounds : Prop :=
  (∀ b : Beat, b.cw = 0x13 → decode b = .ok (.clamp b.op0 (b.op1.setWidth 32) (b.op2.setWidth 32))) ∧
  ∀ (v : Word64) (lo hi : Word32) (s : State),
    (hi.toInt < lo.toInt → exec (.clamp v lo hi) s = .next (raise .invalidArgument 0 0x0012 s)) ∧
    (lo.toInt ≤ hi.toInt → ∃ r : Word64, r.toInt = max lo.toInt (min v.toInt hi.toInt) ∧
      exec (.clamp v lo hi) s = .next (respond r 0 s))

/-- R114: CYCLELOG answers `hashLog` for strategies 0 to 4, `hashLog - 1` modulo `2^32` for 5 to 7, and raises beyond. -/
def Obligations.CyclelogDependsOnTheFamily : Prop :=
  (∀ b : Beat, b.cw = 0x14 → decode b = .ok (.cyclelog (b.op0.setWidth 32) (b.op1.setWidth 32))) ∧
  ∀ (h g : Word32) (s : State),
    (7 < g.toNat → exec (.cyclelog h g) s = .next (raise .invalidArgument 0 0x0015 s)) ∧
    (g.toNat ≤ 4 → exec (.cyclelog h g) s = .next (respond (h.setWidth 64) 0 s)) ∧
    (5 ≤ g.toNat → g.toNat ≤ 7 → ∃ r : Word64, r.toNat = (h.toNat + (2 ^ 32 - 1)) % 2 ^ 32 ∧
      exec (.cyclelog h g) s = .next (respond r 0 s))

/-- R115: MINTLOG answers `min(hb(inputSize - 1) + 1, hb(maxSymbolValue) + 2)`, in `1 .. 32`; the size is checked
first. -/
def Obligations.MintlogReturnsTheSmallerTableLog : Prop :=
  (∀ b : Beat, b.cw = 0x15 → decode b = .ok (.mintlog (b.op0.setWidth 32) (b.op1.setWidth 32))) ∧
  ∀ (n m : Word32) (s : State),
    (n.toNat ≤ 1 → exec (.mintlog n m) s = .next (raise .invalidArgument 0 0x0013 s)) ∧
    (1 < n.toNat → m = 0 → exec (.mintlog n m) s = .next (raise .invalidArgument 0 0x0014 s)) ∧
    (1 < n.toNat → m ≠ 0 → ∃ p q : Nat,
      2 ^ p ≤ n.toNat - 1 ∧ n.toNat - 1 < 2 ^ (p + 1) ∧ 2 ^ q ≤ m.toNat ∧ m.toNat < 2 ^ (q + 1) ∧
      1 ≤ min (p + 1) (q + 2) ∧ min (p + 1) (q + 2) ≤ 32 ∧
      exec (.mintlog n m) s = .next (respond (BitVec.ofNat 64 (min (p + 1) (q + 2))) 0 s))

/-- R116: the outcome of a numeric command (status, results) is the same in any two states, and it changes no cursor
register, no flag and no memory. -/
def Obligations.NumericCommandsIgnoreTheSession : Prop :=
  ∀ (i : Instr) (s s' : State), isNumeric i = true → ∃ t t' r r',
    exec i s = .next t ∧ exec i s' = .next t' ∧ t.response = some r ∧ t'.response = some r' ∧
    r.st = r'.st ∧ r.res0 = r'.res0 ∧ r.res1 = r'.res1 ∧
    sameCursor s t ∧ sameFlags s t ∧ sameMemory s t

/-! ## LE24 -/

/-- R120: GET24LE answers the little-endian value of three bytes, at any alignment, and raises when one of them does not
exist. -/
def Obligations.Get24leReadsThreeBytes : Prop :=
  (∀ b : Beat, b.cw = 0x20 → decode b = .ok (.get24le b.op0)) ∧
  ∀ (a : Word64) (s : State),
    (s.cfg.memSize < a.toNat + 3 → exec (.get24le a) s = .next (raise .indexOutOfRange 0 0x0032 s)) ∧
    (a.toNat + 3 ≤ s.cfg.memSize → ∃ r : Word64,
      r.toNat = (s.mem.read a.toNat).toNat + 2 ^ 8 * (s.mem.read (a.toNat + 1)).toNat
        + 2 ^ 16 * (s.mem.read (a.toNat + 2)).toNat ∧
      exec (.get24le a) s = .next (respond r 0 s))

/-- R121: PUT24LE stores the three low bytes of `v`, drops bits 31:24, changes no other byte and nothing else, and raises
when one of the bytes does not exist. -/
def Obligations.Put24leStoresThreeBytes : Prop :=
  (∀ b : Beat, b.cw = 0x21 → decode b = .ok (.put24le b.op0 (b.op1.setWidth 32))) ∧
  ∀ (a : Word64) (v : Word32) (s : State),
    (s.cfg.memSize < a.toNat + 3 → exec (.put24le a v) s = .next (raise .indexOutOfRange 0 0x0032 s)) ∧
    (a.toNat + 3 ≤ s.cfg.memSize → ∃ m : Memory,
      m.read a.toNat = v.extractLsb' 0 8 ∧ m.read (a.toNat + 1) = v.extractLsb' 8 8 ∧
      m.read (a.toNat + 2) = v.extractLsb' 16 8 ∧
      (∀ x, x < a.toNat ∨ a.toNat + 3 ≤ x → m.read x = s.mem.read x) ∧
      exec (.put24le a v) s = .next
        { s with mem := m, response := some { st := 0, fl := flags s, res0 := 0, res1 := 0 } })

/-- R122: GET24LE after PUT24LE at the same address returns `v mod 2^24`. -/
def Obligations.Get24leAfterPut24leReturnsTheValue : Prop :=
  ∀ (a : Word64) (v : Word32) (s : State), a.toNat + 3 ≤ s.cfg.memSize → ∃ t r,
    exec (.put24le a v) s = .next t ∧ exec (.get24le a) t = .next (respond r 0 t) ∧ r.toNat = v.toNat % 2 ^ 24

/-! ## Checks -/

/-- R125: VERIFY with a false condition raises MalformedInput with the host's offset and reason. -/
def Obligations.VerifyRaisesMalformedInput : Prop :=
  (∀ b : Beat, b.cw = 0x30 → decode b = .ok (.verify (decide (b.op0 ≠ 0)) b.op1 (b.op2.setWidth 16))) ∧
  ∀ (offset : Word64) (reason : BitVec 16) (s : State),
    exec (.verify true offset reason) s = .next (respond 0 0 s) ∧
    exec (.verify false offset reason) s = .next
      { s with
        errFlags := s.errFlags ||| 0b00001, errKind := 1, errOff := offset, errRsn := reason
        response := some { st := 1, fl := flags s, res0 := offset, res1 := reason.setWidth 64 } }

/-- R126: CHKARG with a false condition raises InvalidArgument with the host's reason. -/
def Obligations.ChkargRaisesInvalidArgument : Prop :=
  (∀ b : Beat, b.cw = 0x31 → decode b = .ok (.chkarg (decide (b.op0 ≠ 0)) (b.op2.setWidth 16))) ∧
  ∀ (reason : BitVec 16) (s : State),
    exec (.chkarg true reason) s = .next (respond 0 0 s) ∧
    exec (.chkarg false reason) s = .next
      { s with
        errFlags := s.errFlags ||| 0b00010, errKind := 2, errOff := 0, errRsn := reason
        response := some { st := 2, fl := flags s, res0 := 0, res1 := reason.setWidth 64 } }

/-- R127: CHKSTATE with a false condition raises InvalidState with the host's reason. -/
def Obligations.ChkstateRaisesInvalidState : Prop :=
  (∀ b : Beat, b.cw = 0x32 → decode b = .ok (.chkstate (decide (b.op0 ≠ 0)) (b.op2.setWidth 16))) ∧
  ∀ (reason : BitVec 16) (s : State),
    exec (.chkstate true reason) s = .next (respond 0 0 s) ∧
    exec (.chkstate false reason) s = .next
      { s with
        errFlags := s.errFlags ||| 0b00100, errKind := 3, errOff := 0, errRsn := reason
        response := some { st := 3, fl := flags s, res0 := 0, res1 := reason.setWidth 64 } }

/-- R128: CHKPOS succeeds exactly when `0 <= start <= end <= size`; a bad `start` is blamed first; a negative size
always blames `start`. -/
def Obligations.ChkposTestsTheTriple : Prop :=
  (∀ b : Beat, b.cw = 0x33 → decode b = .ok (.chkpos b.op0 b.op1 b.op2)) ∧
  ∀ (a e z : Word64) (s : State),
    (0 ≤ a.toInt → a.toInt ≤ e.toInt → e.toInt ≤ z.toInt → exec (.chkpos a e z) s = .next (respond 0 0 s)) ∧
    ((a.toInt < 0 ∨ z.toInt < a.toInt) → exec (.chkpos a e z) s = .next (raise .indexOutOfRange 0 0x0030 s)) ∧
    (0 ≤ a.toInt → a.toInt ≤ z.toInt → (e.toInt < 0 ∨ z.toInt < e.toInt ∨ e.toInt < a.toInt) →
      exec (.chkpos a e z) s = .next (raise .indexOutOfRange 0 0x0031 s)) ∧
    (z.toInt < 0 → exec (.chkpos a e z) s = .next (raise .indexOutOfRange 0 0x0030 s))

/-! ## INIT -/

/-- R135, R137: INIT raises in the order of its steps, else opens the session: the whole cursor, the three flags and the
response; nothing else changes. -/
def Obligations.InitOpensASessionOrRaises : Prop :=
  (∀ b : Beat, b.cw = 0x40 → decode b = .ok (.init b.op0 b.op1)) ∧
  ∀ (a e : Word64) (s : State),
    (e.toNat ≤ a.toNat → exec (.init a e) s = .next (raise .malformedInput a 0x0001 s)) ∧
    (a.toNat < e.toNat → s.cfg.memSize < e.toNat →
      exec (.init a e) s = .next (raise .indexOutOfRange 0 0x0032 s)) ∧
    (a.toNat < e.toNat → e.toNat ≤ s.cfg.memSize → s.mem.read (e.toNat - 1) = 0 →
      exec (.init a e) s = .next (raise .malformedInput e 0x0002 s)) ∧
    (a.toNat < e.toNat → e.toNat ≤ s.cfg.memSize → s.mem.read (e.toNat - 1) ≠ 0 →
      ∃ (h : Nat) (cur w : Word64) (c : Word32) (t : State),
        2 ^ h ≤ (s.mem.read (e.toNat - 1)).toNat ∧ (s.mem.read (e.toNat - 1)).toNat < 2 ^ (h + 1) ∧
        (8 ≤ e.toNat - a.toNat → cur.toNat = e.toNat - 8 ∧ holdsBytes s.mem (e.toNat - 8) 8 w ∧ c.toNat = 63 - h) ∧
        (e.toNat - a.toNat < 8 → cur = a ∧ holdsBytes s.mem a.toNat (e.toNat - a.toNat) w ∧
          c.toNat = (8 - (e.toNat - a.toNat)) * 8 + (63 - h)) ∧
        exec (.init a e) s = .next t ∧
        t = { s with
              start := a, endAddr := e, cur := cur, bits := w, bc := c, act := true, ovf := false, exh := false
              response := some { st := 0, fl := flags t, res0 := w, res1 := c.setWidth 64 } })

/-- R138: in the normal case the initial count is 56 to 63; in the tail case at least 64, with equality exactly for seven
bytes whose last has bit 7 set, which is then the end of the stream; every other short range overflows at the first
LOAD. -/
def Obligations.InitialCountOfShortRangesIsAtLeastSixtyFour : Prop :=
  ∀ (a e : Word64) (s t : State), a.toNat < e.toNat → exec (.init a e) s = .next t → succeeded t →
    (8 ≤ e.toNat - a.toNat → 56 ≤ t.bc.toNat ∧ t.bc.toNat ≤ 63) ∧
    (e.toNat - a.toNat < 8 → 64 ≤ t.bc.toNat ∧
      (t.bc.toNat = 64 ↔ e.toNat - a.toNat = 7 ∧ 0x80 ≤ (s.mem.read (e.toNat - 1)).toNat) ∧
      (t.bc.toNat = 64 → (flags t).getLsbD 3 = true) ∧
      (t.bc.toNat ≠ 64 → ∃ u, exec .load t = .next u ∧ u.ovf = true))

/-! ## PEEK, PEEKF -/

/-- R145: PEEK answers the shifted window; the cursor form takes window and count from the registers and needs a session;
the count is checked before the width. -/
def Obligations.PeekReturnsTheShiftedWindow : Prop :=
  (∀ b : Beat, b.cw = 0x41 → decode b = .ok (.peek false b.op0 (b.op1.setWidth 32) (b.op2.setWidth 32))) ∧
  (∀ b : Beat, b.cw = 0x141 → decode b = .ok (.peek true 0 0 (b.op2.setWidth 32))) ∧
  ∀ (c : Bool) (w₀ w : Word64) (b₀ b n : Word32) (s : State),
    w = (if c then s.bits else w₀) → b = (if c then s.bc else b₀) →
    (c = true → s.act = false → exec (.peek c w₀ b₀ n) s = .next (raise .invalidState 0 0x0020 s)) ∧
    ((c = false ∨ s.act = true) →
      (63 < b.toNat → exec (.peek c w₀ b₀ n) s = .next (raise .invalidArgument 0 0x0016 s)) ∧
      (b.toNat ≤ 63 → 63 < n.toNat → exec (.peek c w₀ b₀ n) s = .next (raise .invalidArgument 0 0x0017 s)) ∧
      (b.toNat ≤ 63 → n.toNat ≤ 63 → ∃ r : Word64,
        r.toNat = (w.toNat * 2 ^ b.toNat) % 2 ^ 64 / 2 / 2 ^ (63 - n.toNat) ∧ r.toNat < 2 ^ n.toNat ∧
        exec (.peek c w₀ b₀ n) s = .next (respond r 0 s)))

/-- R146: PEEKF answers the shifted window for `1 <= n <= 64`; the cursor form as for PEEK. -/
def Obligations.PeekfReturnsTheShiftedWindow : Prop :=
  (∀ b : Beat, b.cw = 0x42 → decode b = .ok (.peekf false b.op0 (b.op1.setWidth 32) (b.op2.setWidth 32))) ∧
  (∀ b : Beat, b.cw = 0x142 → decode b = .ok (.peekf true 0 0 (b.op2.setWidth 32))) ∧
  ∀ (c : Bool) (w₀ w : Word64) (b₀ b n : Word32) (s : State),
    w = (if c then s.bits else w₀) → b = (if c then s.bc else b₀) →
    (c = true → s.act = false → exec (.peekf c w₀ b₀ n) s = .next (raise .invalidState 0 0x0020 s)) ∧
    ((c = false ∨ s.act = true) →
      (63 < b.toNat → exec (.peekf c w₀ b₀ n) s = .next (raise .invalidArgument 0 0x0016 s)) ∧
      (b.toNat ≤ 63 → (n = 0 ∨ 64 < n.toNat) →
        exec (.peekf c w₀ b₀ n) s = .next (raise .invalidArgument 0 0x0017 s)) ∧
      (b.toNat ≤ 63 → 1 ≤ n.toNat → n.toNat ≤ 64 → ∃ r : Word64,
        r.toNat = (w.toNat * 2 ^ b.toNat) % 2 ^ 64 / 2 ^ (64 - n.toNat) ∧
        exec (.peekf c w₀ b₀ n) s = .next (respond r 0 s)))

/-- R148: where both are defined PEEK and PEEKF answer the same value, bit `j` of which is bit `64 + j - bc - n` of the
window, or zero below the window; PEEK alone answers `n = 0`, with 0, and PEEKF alone `n = 64`. -/
def Obligations.PeekAndPeekfReadTheSameBits : Prop :=
  ∀ (w : Word64) (bc n : Word32) (s : State), bc.toNat ≤ 63 →
    (1 ≤ n.toNat → n.toNat ≤ 63 → ∃ r : Word64,
      exec (.peek false w bc n) s = .next (respond r 0 s) ∧ exec (.peekf false w bc n) s = .next (respond r 0 s) ∧
      r.toNat = (w.toNat * 2 ^ bc.toNat) % 2 ^ 64 / 2 ^ (64 - n.toNat) ∧
      ∀ j, r.getLsbD j =
        (decide (j < n.toNat ∧ bc.toNat + n.toNat ≤ 64 + j) && w.getLsbD (64 + j - (bc.toNat + n.toNat)))) ∧
    (n = 0 → exec (.peek false w bc n) s = .next (respond 0 0 s) ∧
      exec (.peekf false w bc n) s = .next (raise .invalidArgument 0 0x0017 s)) ∧
    (n = 64 → exec (.peek false w bc n) s = .next (raise .invalidArgument 0 0x0017 s) ∧
      exec (.peekf false w bc n) s = .next (respond (w <<< bc.toNat) 0 s))

/-- R149: PEEK and PEEKF, in either form, change no cursor register, no flag and no memory, and nothing but the response
when they succeed; in any two states with the same window, count and `ACT` (no command that writes them between) the
answer is the same. -/
def Obligations.PeeksConsumeNothing : Prop :=
  ∀ (c f : Bool) (w : Word64) (bc n : Word32) (i : Instr), i = (if f then .peekf c w bc n else .peek c w bc n) →
    (∀ s, ∃ t, exec i s = .next t ∧ sameCursor s t ∧ sameFlags s t ∧ sameMemory s t ∧
      (succeeded t → t = { s with response := t.response })) ∧
    ∀ s s' t t' r r', s'.bits = s.bits → s'.bc = s.bc → s'.act = s.act → exec i s = .next t → exec i s' = .next t' →
      t.response = some r → t'.response = some r' → r.st = r'.st ∧ r.res0 = r'.res0 ∧ r.res1 = r'.res1

/-! ## LOAD, ISEOS -/

/-- R155, R160: LOAD without a session raises; with one it takes the row of the case table that its count and its
distance from `START` select. -/
def Obligations.LoadFollowsItsCaseTable : Prop :=
  (∀ b : Beat, b.cw = 0x43 → decode b = .ok .load) ∧
  ∀ s : State,
    (s.act = false → exec .load s = .next (raise .invalidState 0 0x0020 s)) ∧
    (s.act = true → SessionInv s → ∀ d b : Nat, d = s.cur.toNat - s.start.toNat → b = s.bc.toNat →
      (64 < b → exec .load s = .next (afterLoad s s.cur s.bits s.bc true true)) ∧
      (b ≤ 64 → d = 0 → exec .load s = .next (afterLoad s s.cur s.bits s.bc true s.ovf)) ∧
      (b < 8 → 8 ≤ d → exec .load s = .next (afterLoad s s.cur s.bits s.bc false s.ovf)) ∧
      (8 ≤ b → b ≤ 64 → 8 ≤ d → ∃ (cur w : Word64) (c : Word32),
        cur.toNat = s.cur.toNat - b / 8 ∧ holdsBytes s.mem cur.toNat 8 w ∧ c.toNat = b % 8 ∧
        exec .load s = .next (afterLoad s cur w c false s.ovf)) ∧
      (b ≤ 64 → 1 ≤ d → d ≤ 7 → d < b / 8 → ∃ (w : Word64) (c : Word32),
        holdsBytes s.mem s.start.toNat 8 w ∧ (c.toNat : Int) = ((b : Int) - 64 * d) % 2 ^ 32 ∧
        exec .load s = .next (afterLoad s s.start w c true s.ovf)) ∧
      (b ≤ 64 → 1 ≤ d → d ≤ 7 → b / 8 ≤ d → ∃ (cur w : Word64) (c : Word32),
        cur.toNat = s.cur.toNat - b / 8 ∧ holdsBytes s.mem cur.toNat 8 w ∧
        (c.toNat : Int) = ((b : Int) - 64 * (b / 8 : Nat)) % 2 ^ 32 ∧
        exec .load s = .next (afterLoad s cur w c false s.ovf)))

/-- Derived from R158: a LOAD of case 3b or 3c that steps back at least one byte leaves a count above 64, so that the
next LOAD reports overflow, except from `CUR = START + 1` with `BC = 64`, where the count becomes 0. -/
def Obligations.BoundaryLoadsLeaveAnOverflowingCount : Prop :=
  ∀ s t : State, s.act = true → SessionInv s → 8 ≤ s.bc.toNat → s.bc.toNat ≤ 64 →
    s.start.toNat < s.cur.toNat → s.cur.toNat < s.start.toNat + 8 → exec .load s = .next t →
    (s.cur.toNat = s.start.toNat + 1 ∧ s.bc = 64 ∧ t.bc = 0) ∨
    (64 < t.bc.toNat ∧ ∃ u, exec .load t = .next u ∧ u.ovf = true ∧ u.exh = true ∧ succeeded u)

/-- R157: LOAD with a count above 64 answers with `ST = 0` and sets `OVF` and `EXH`, and only so is `OVF` set; it is
cleared only by an INIT that succeeds or by reset. While it is set the session is dead: LOAD repeats case 1 and records
no error, `BC` cannot be written, the cursor forms of PEEK and PEEKF raise on the count, and ISEOS.C answers 0. -/
def Obligations.OverflowLatchKillsTheSession : Prop :=
  (∀ s : State, s.act = true → 64 < s.bc.toNat → exec .load s = .next (afterLoad s s.cur s.bits s.bc true true)) ∧
  (∀ (i : Instr) (s t : State), exec i s = .next t → s.ovf = false → t.ovf = true →
    i = .load ∧ s.act = true ∧ 64 < s.bc.toNat) ∧
  (∀ (x : HostInput) (s t : State), takeInput x s = .next t → s.ovf = true → t.ovf = false →
    x = .reset ∨ (∃ b, x = .resetDuring b) ∨
      ∃ b a e, x = .command b ∧ decode b = .ok (.init a e) ∧ succeeded t) ∧
  ∀ s : State, OverflowInv s → s.ovf = true →
    exec .load s = .next (afterLoad s s.cur s.bits s.bc true true) ∧
    (∀ v, exec (.wrreg 4 v) s = .next (raise .invalidState 0 0x0021 s)) ∧
    (∀ w b n, exec (.peek true w b n) s = .next (raise .invalidArgument 0 0x0016 s)) ∧
    (∀ w b n, exec (.peekf true w b n) s = .next (raise .invalidArgument 0 0x0016 s)) ∧
    (∀ p q b, exec (.iseos true p q b) s = .next (respond 0 0 s))

/-- Derived from R57, R159: LOAD looks at no byte outside `[START, END)`, and INIT at none outside its operands'
range: with other contents there (any list of bytes, canonical or not), everything but memory comes out the same. -/
def Obligations.StreamReadsStayInsideTheRange : Prop :=
  (∀ (s t : State) (m : Memory), SessionInv s →
    (∀ x, s.start.toNat ≤ x → x < s.endAddr.toNat → m.read x = s.mem.read x) →
    exec .load s = .next t → exec .load { s with mem := m } = .next { t with mem := m }) ∧
  (∀ (a e : Word64) (s t : State) (m : Memory),
    (∀ x, a.toNat ≤ x → x < e.toNat → m.read x = s.mem.read x) →
    exec (.init a e) s = .next t → exec (.init a e) { s with mem := m } = .next { t with mem := m })

/-- R156: ISEOS answers 1 exactly when the current address is the start address and the count is 64; its cursor form
needs a session and equals `FLAGS.EOS`. -/
def Obligations.IseosTestsTheDrainedState : Prop :=
  (∀ b : Beat, b.cw = 0x44 → decode b = .ok (.iseos false b.op0 b.op1 (b.op2.setWidth 32))) ∧
  (∀ b : Beat, b.cw = 0x144 → decode b = .ok (.iseos true 0 0 0)) ∧
  ∀ (p q : Word64) (b : Word32) (s : State),
    (q = p ∧ b = 64 → exec (.iseos false p q b) s = .next (respond 1 0 s)) ∧
    (¬ (q = p ∧ b = 64) → exec (.iseos false p q b) s = .next (respond 0 0 s)) ∧
    (s.act = false → exec (.iseos true p q b) s = .next (raise .invalidState 0 0x0020 s)) ∧
    (s.act = true →
      (s.cur = s.start ∧ s.bc = 64 → exec (.iseos true p q b) s = .next (respond 1 0 s)) ∧
      (¬ (s.cur = s.start ∧ s.bc = 64) → exec (.iseos true p q b) s = .next (respond 0 0 s)) ∧
      exec (.iseos true p q b) s = .next (respond (if (flags s).getLsbD 3 then 1 else 0) 0 s))

/-! ## System -/

/-- R170: RDREG answers the register its number names, zero-extended; 10 and above name none; the cursor registers need a
session. -/
def Obligations.RdregReadsTheNamedRegister : Prop :=
  (∀ b : Beat, b.cw = 0x50 → decode b = .ok (.rdreg (b.op0.setWidth 32))) ∧
  ∀ (n : Word32) (s : State),
    (9 < n.toNat → exec (.rdreg n) s = .next (raise .invalidArgument 0 0x0018 s)) ∧
    (n.toNat ≤ 4 → s.act = false → exec (.rdreg n) s = .next (raise .invalidState 0 0x0020 s)) ∧
    (n.toNat ≤ 9 → (n.toNat ≤ 4 → s.act = true) → ∃ x : Word64,
      [s.start, s.endAddr, s.cur, s.bits, s.bc.setWidth 64, (flags s).setWidth 64, s.errFlags.setWidth 64,
        s.errKind.setWidth 64, s.errOff, s.errRsn.setWidth 64][n.toNat]? = some x ∧
      exec (.rdreg n) s = .next (respond x 0 s))

/-- R171: WRREG writes `BC` in a session that has not overflowed and clears bits of `ERRFLAGS`; it raises on every other
register and number. -/
def Obligations.WrregWritesCountAndClearsErrors : Prop :=
  (∀ b : Beat, b.cw = 0x51 → decode b = .ok (.wrreg (b.op0.setWidth 32) b.op1)) ∧
  ∀ (n : Word32) (v : Word64) (s : State),
    (9 < n.toNat → exec (.wrreg n v) s = .next (raise .invalidArgument 0 0x0018 s)) ∧
    (n.toNat ≤ 9 → n ≠ 4 → n ≠ 6 → exec (.wrreg n v) s = .next (raise .invalidArgument 0 0x0019 s)) ∧
    (n = 4 → s.act = false → exec (.wrreg n v) s = .next (raise .invalidState 0 0x0020 s)) ∧
    (n = 4 → s.act = true → s.ovf = true → exec (.wrreg n v) s = .next (raise .invalidState 0 0x0021 s)) ∧
    (n = 4 → s.act = true → s.ovf = false → ∃ t, exec (.wrreg n v) s = .next t ∧
      t = { s with
            bc := v.setWidth 32
            response := some { st := 0, fl := flags t, res0 := 0, res1 := 0 } }) ∧
    (n = 6 → ∃ c : BitVec 5, (∀ j, c.getLsbD j = (s.errFlags.getLsbD j && !v.getLsbD j)) ∧
      exec (.wrreg n v) s = .next
        { s with errFlags := c, response := some { st := 0, fl := flags s, res0 := 0, res1 := 0 } })

/-- R172: BLKCMP always raises UnsupportedOperation with its own reason. -/
def Obligations.BlkcmpAlwaysRaisesUnsupportedOperation : Prop :=
  (∀ b : Beat, b.cw = 0x60 → decode b = .ok .blkcmp) ∧
  ∀ s : State, exec .blkcmp s = .next
    { s with
      errFlags := s.errFlags ||| 0b10000, errKind := 5, errOff := 0, errRsn := 0x0040
      response := some { st := 5, fl := flags s, res0 := 0, res1 := 0x0040 } }

/-- Derived from R26: the four bits of `FLAGS`; `EOS` is computed from the registers. -/
def Obligations.FlagsRegisterShowsItsFields : Prop :=
  ∀ s : State,
    (flags s).getLsbD 0 = s.act ∧ (flags s).getLsbD 1 = s.ovf ∧ (flags s).getLsbD 2 = s.exh ∧
    ((flags s).getLsbD 3 = true ↔ s.act = true ∧ s.cur = s.start ∧ s.bc = 64)

/-! ## Errors and responses, over every command -/

/-- R184: a command beat that ends with an error, an illegal word included, changes no cursor register, no flag and no
byte of memory; it sets its sticky bit, overwrites the capture registers, and the response carries kind, offset and
reason; the engine then takes any next command. -/
def Obligations.FailingCommandsChangeOnlyTheCapture : Prop :=
  ∀ (b : Beat) (s t : State) (r : Response), runCommand b s = .next t → t.response = some r → r.st ≠ 0 →
    sameCursor s t ∧ sameFlags s t ∧ sameMemory s t ∧ sameSurroundings s t ∧
    1 ≤ r.st.toNat ∧ r.st.toNat ≤ 5 ∧
    (∀ j, t.errFlags.getLsbD j = (s.errFlags.getLsbD j || decide (j = r.st.toNat - 1))) ∧
    t.errKind = r.st ∧ t.errOff = r.res0 ∧ (r.st ≠ 1 → r.res0 = 0) ∧ r.res1 = t.errRsn.setWidth 64 ∧
    r.fl = flags s ∧ ∀ b', ∃ u, runCommand b' t = .next u

/-- Derived from R27, R28, R29: a command beat that succeeds leaves the capture registers as they were, but for the
bits of `ERRFLAGS` that a WRREG clears. -/
def Obligations.SucceedingCommandsKeepTheCapture : Prop :=
  ∀ (b : Beat) (s t : State), runCommand b s = .next t → succeeded t →
    t.errKind = s.errKind ∧ t.errOff = s.errOff ∧ t.errRsn = s.errRsn ∧
    (t.errFlags = s.errFlags ∨
      ∃ v, decode b = .ok (.wrreg 6 v) ∧ ∀ j, t.errFlags.getLsbD j = (s.errFlags.getLsbD j && !v.getLsbD j))

/-- Derived from R27: a sticky error bit is cleared only by reset or by a WRREG to `ERRFLAGS` with a 1 in its
position, over every interaction of the host. -/
def Obligations.StickyBitsAreClearedByWrregOrReset : Prop :=
  ∀ (x : HostInput) (s t : State) (j : Nat), takeInput x s = .next t → s.errFlags.getLsbD j = true →
    t.errFlags.getLsbD j = false →
      x = .reset ∨ (∃ b, x = .resetDuring b) ∨
        ∃ b v, x = .command b ∧ decode b = .ok (.wrreg 6 v) ∧ v.getLsbD j = true

/-- Derived from R88, R221: every command beat, legal or not, ends in a next state with one response whose `FL` is
`FLAGS` after the command and whose `ST` is 0 to 5. -/
def Obligations.EveryCommandAnswersOnce : Prop :=
  ∀ (b : Beat) (s : State), ∃ t r, runCommand b s = .next t ∧ t.response = some r ∧
    r.fl = flags t ∧ r.st.toNat ≤ 5 ∧ t.host = s.host

/-- Derived from R182: a command ends only with an error kind its row of the table lists. -/
def Obligations.CommandsRaiseOnlyTheirKinds : Prop :=
  ∀ (i : Instr) (s t : State) (r : Response), SessionInv s → exec i s = .next t → t.response = some r →
    r.st = 0 ∨ ∃ k ∈ canRaise i, r.st = errCode k

/-! ## Frames -/

/-- Derived from R31, R53, R116: the commands that only read change nothing but the response and, when they fail, the
capture registers. -/
def Obligations.FrameOfReadingCommands : Prop :=
  ∀ (i : Instr) (s t : State), readsOnly i = true → exec i s = .next t →
    sameCursor s t ∧ sameFlags s t ∧ sameMemory s t ∧ sameSurroundings s t ∧ (succeeded t → sameCapture s t)

/-- Derived from R121, R62: PUT24LE changes no byte outside the three at its address, no register and no flag (the
window is not updated), and the capture registers only when it fails. -/
def Obligations.FrameOfPut24le : Prop :=
  ∀ (a : Word64) (v : Word32) (s t : State), exec (.put24le a v) s = .next t →
    (∀ x, x < a.toNat ∨ a.toNat + 3 ≤ x → t.mem.read x = s.mem.read x) ∧
    sameCursor s t ∧ sameFlags s t ∧ sameSurroundings s t ∧ (succeeded t → sameCapture s t)

/-- Derived from R31: INIT, LOAD and WRREG store nothing; INIT writes the cursor and the flags; LOAD leaves `START`,
`END` and `ACT`; WRREG leaves all but `BC` and `ERRFLAGS`; the capture registers change only on failure or by WRREG.
-/
def Obligations.FrameOfCursorCommands : Prop :=
  ∀ s t : State,
    (∀ a e, exec (.init a e) s = .next t →
      sameMemory s t ∧ sameSurroundings s t ∧ (succeeded t → sameCapture s t) ∧
      (¬ succeeded t → sameCursor s t ∧ sameFlags s t)) ∧
    (exec .load s = .next t →
      sameMemory s t ∧ sameSurroundings s t ∧ (succeeded t → sameCapture s t) ∧
      t.start = s.start ∧ t.endAddr = s.endAddr ∧ t.act = s.act ∧ (s.ovf = true → t.ovf = true) ∧
      (¬ succeeded t → sameCursor s t ∧ sameFlags s t)) ∧
    (∀ n v, exec (.wrreg n v) s = .next t →
      sameMemory s t ∧ sameSurroundings s t ∧ sameFlags s t ∧
      t.start = s.start ∧ t.endAddr = s.endAddr ∧ t.cur = s.cur ∧ t.bits = s.bits ∧ (n ≠ 4 → t.bc = s.bc) ∧
      (succeeded t → n ≠ 6 → sameCapture s t) ∧
      (succeeded t → t.errKind = s.errKind ∧ t.errOff = s.errOff ∧ t.errRsn = s.errRsn))

/-- Derived from R31, over every command: `START` and `END` are written only by INIT, `CUR` and `BITS` only by INIT
and LOAD, `BC` only by INIT, LOAD and WRREG, `ACT` only by INIT, `OVF` and `EXH` only by INIT and LOAD. -/
def Obligations.CursorIsWrittenOnlyByItsCommands : Prop :=
  ∀ (i : Instr) (s t : State), exec i s = .next t →
    (t.start ≠ s.start ∨ t.endAddr ≠ s.endAddr ∨ t.act ≠ s.act → ∃ a e, i = .init a e) ∧
    (t.cur ≠ s.cur ∨ t.bits ≠ s.bits ∨ t.ovf ≠ s.ovf ∨ t.exh ≠ s.exh → (∃ a e, i = .init a e) ∨ i = .load) ∧
    (t.bc ≠ s.bc → (∃ a e, i = .init a e) ∨ i = .load ∨ ∃ v, i = .wrreg 4 v)

/-- Derived from R53, R55, over every command: only PUT24LE writes memory. -/
def Obligations.OnlyPut24leWritesMemory : Prop :=
  ∀ (i : Instr) (s t : State) (x : Nat), exec i s = .next t → t.mem.read x ≠ s.mem.read x →
    ∃ a v, i = .put24le a v ∧ a.toNat ≤ x ∧ x < a.toNat + 3 ∧ a.toNat + 3 ≤ s.cfg.memSize

/-- Derived from R36: no interaction changes the parameter of the instance. -/
def Obligations.StepKeepsTheParameter : Prop :=
  ∀ s t : State, step s = .next t → t.cfg = s.cfg

/-! ## Invariants -/

/-- Derived from R26 to R30, R32, R157: every step from a state that meets the invariant gives one that meets it. Its
part about memory, `MemoryInv`, is the canonical form of the model's own memory (its choice, log entry 3). -/
def Obligations.StepKeepsTheInvariant : Prop :=
  ∀ s t : State, EngineInv s → step s = .next t → EngineInv t

/-- Derived from R38: the state after reset meets the invariant. Its part about memory, `MemoryInv`, rests on the empty
canonical memory of `State.reset` (the model's choice, log entry 3): the spec says only that memory is the host's. -/
def Obligations.ResetMeetsTheInvariant : Prop := EngineInv State.reset

/-- The canonical form of memory (log entry 3) is kept by every step, from any state that has it. -/
def Obligations.StepKeepsMemoryCanonical : Prop :=
  ∀ s t : State, MemoryInv s → step s = .next t → MemoryInv t

/-- Derived from R32 point 4: within a session `CUR` never increases, and no command but INIT ends it. -/
def Obligations.CurNeverIncreasesWithinASession : Prop :=
  ∀ (i : Instr) (s t : State), s.act = true → SessionInv s → (∀ a e, i ≠ .init a e) → exec i s = .next t →
    t.cur.toNat ≤ s.cur.toNat ∧ s.start.toNat ≤ t.cur.toNat ∧ t.start = s.start ∧ t.endAddr = s.endAddr ∧
    t.act = true

/-- Derived from R24, R61, R214: while nothing stores into the range of the session, the window is a copy of memory
after every command. -/
def Obligations.WindowStaysACopyOfMemory : Prop :=
  ∀ (i : Instr) (s t : State), SessionInv s → WindowMatchesMemory s →
    (∀ a v, i = .put24le a v → a.toNat + 3 ≤ s.start.toNat ∨ s.endAddr.toNat ≤ a.toNat) →
    exec i s = .next t → WindowMatchesMemory t

/-- Derived from R155 case 3a with R24: a mainline LOAD loses and repeats no bit of the stream: the position stays,
and PEEKF of up to 57 bits after it answers the bits of memory just below that position. -/
def Obligations.MainlineLoadKeepsTheStream : Prop :=
  ∀ (s t : State) (n : Word32), s.act = true → SessionInv s → WindowMatchesMemory s → s.bc.toNat ≤ 64 →
    s.start.toNat + 8 ≤ s.cur.toNat → exec .load s = .next t →
    streamPosition t = streamPosition s ∧ t.bc.toNat < 8 ∧
    (1 ≤ n.toNat → n.toNat ≤ 57 → ∃ r : Word64, exec (.peekf true 0 0 n) t = .next (respond r 0 t) ∧
      ∀ j, r.getLsbD j = (decide (j < n.toNat) && streamBit s.mem (streamPosition s - n.toNat + j)))

/-! ## Reset and the host -/

/-- R210: the reset input clears the flags and the capture registers and leaves memory; the cursor registers cannot be
read before a successful INIT, the only command that opens a session; the engine then takes any command. -/
def Obligations.ResetInputGivesTheResetState : Prop :=
  ∀ s : State, ∃ t, takeInput .reset s = .next t ∧
    t.act = false ∧ t.ovf = false ∧ t.exh = false ∧ flags t = 0 ∧
    t.errFlags = 0 ∧ t.errKind = 0 ∧ t.errOff = 0 ∧ t.errRsn = 0 ∧ sameMemory s t ∧ t.host = s.host ∧ t.cfg = s.cfg ∧
    (∀ n : Word32, n.toNat ≤ 4 → exec (.rdreg n) t = .next (raise .invalidState 0 0x0020 t)) ∧
    (∀ i u, exec i t = .next u → u.act = true → ∃ a e, i = .init a e ∧ succeeded u) ∧
    ∀ b, ∃ u, runCommand b t = .next u

/-- Derived from R38: the state after reset holds the values the spec gives, RDREG cannot read the cursor registers in
it, which have none, and the reset input leaves memory. `CursorIsUnobservableBeforeInit` says the same of every command
that reads them. -/
def Obligations.ResetStateHoldsTheSpecValues : Prop :=
  State.reset.act = false ∧ State.reset.ovf = false ∧ State.reset.exh = false ∧ flags State.reset = 0 ∧
  State.reset.errFlags = 0 ∧ State.reset.errKind = 0 ∧ State.reset.errOff = 0 ∧ State.reset.errRsn = 0 ∧
  (∀ n : Word32, n.toNat ≤ 4 → exec (.rdreg n) State.reset = .next (raise .invalidState 0 0x0020 State.reset)) ∧
  ∀ s t : State, takeInput .reset s = .next t → sameMemory s t

/-- Derived from R211: a reset during a command issues no response and gives the reset state; a PUT24LE in bounds has
written some prefix of its three bytes, whichever (the free value of log entry 7), and no other command has written
anything. -/
def Obligations.ResetDuringACommandAbandonsIt : Prop :=
  ∀ (s : State) (b : Beat), ∃ t, takeInput (.resetDuring b) s = .next t ∧
    flags t = 0 ∧ t.errFlags = 0 ∧ t.errKind = 0 ∧ t.errOff = 0 ∧ t.errRsn = 0 ∧ t.response = none ∧
    t.host = s.host ∧ t.cfg = s.cfg ∧
    ((∀ a v, decode b ≠ .ok (.put24le a v)) → sameMemory s t) ∧
    (∀ a v, decode b = .ok (.put24le a v) → s.cfg.memSize < a.toNat + 3 → sameMemory s t) ∧
    (∀ a v, decode b = .ok (.put24le a v) → a.toNat + 3 ≤ s.cfg.memSize → ∃ k, k ≤ 3 ∧ ∀ x,
      t.mem.read x =
        if a.toNat ≤ x ∧ x < a.toNat + k then v.extractLsb' (8 * (x - a.toNat)) 8 else s.mem.read x)

/-- Derived from R35, R62: the host writes one byte of memory between commands and nothing else changes, the window
included; outside memory the model stops (its own choice, log entry 6). -/
def Obligations.HostWritesOneByte : Prop :=
  ∀ (s : State) (a : Word64) (v : Byte),
    (a.toNat < s.cfg.memSize → ∃ m : Memory, takeInput (.memWrite a v) s = .next { s with mem := m } ∧
      m.read a.toNat = v ∧ ∀ x, x ≠ a.toNat → m.read x = s.mem.read x) ∧
    (s.cfg.memSize ≤ a.toNat → takeInput (.memWrite a v) s = .fault (.hostWriteOutsideMemory a))

/-- Derived from R195: with nothing presented the engine is idle and holds its state. -/
def Obligations.IdleEngineHoldsItsState : Prop :=
  ∀ s : State, s.host = [] → step s = .next s

/-- Derived from R38, R210: before the first successful INIT no command shows or uses what the cursor registers hold:
from two sessionless states that differ in them alone, every command beat gives the same response, and the same state
again up to those registers, which an INIT that succeeds makes equal. -/
def Obligations.CursorIsUnobservableBeforeInit : Prop :=
  ∀ (b : Beat) (s s' : State), s.act = false → agreeButCursor s s' → ∃ t t',
    runCommand b s = .next t ∧ runCommand b s' = .next t' ∧ agreeButCursor t t' ∧
    (t.act = true → t' = t)
end

