-- ==== Sys2Proof/Laws/Memory.lean ====
section
/-! SUPPORT. The laws of memory: a read after a write, that every write keeps the canonical form and the bound on
addresses, and the little-endian reads and writes byte by byte (spec rules R51 to R53). -/

namespace Sys2Proof.Machine

@[simp] theorem Memory.read_nil (a : Nat) : Memory.read [] a = 0 := rfl

theorem Memory.read_cons (c : Host.Cell) (m : Memory) (a : Nat) :
    Memory.read (c :: m) a = if c.1 = a then c.2 else Memory.read m a := rfl

theorem Memory.read_filter_ne (m : Memory) {a b : Nat} (h : b ≠ a) :
    Memory.read (m.filter (fun c => c.1 != a)) b = Memory.read m b := by
  induction m with
  | nil => rfl
  | cons c m ih =>
    by_cases hc : c.1 = a
    · simp [hc, ih, Memory.read_cons, Ne.symm h]
    · simp [hc, ih, Memory.read_cons]

theorem Memory.read_filter_self (m : Memory) (a : Nat) :
    Memory.read (m.filter (fun c => c.1 != a)) a = 0 := by
  induction m with
  | nil => rfl
  | cons c m ih =>
    by_cases hc : c.1 = a
    · simp [hc, ih]
    · simp [hc, ih, Memory.read_cons]

theorem Memory.read_insert (c : Host.Cell) (m : Memory) (hm : ∀ d ∈ m, d.1 ≠ c.1) (a : Nat) :
    Memory.read (Memory.insert c m) a = if c.1 = a then c.2 else Memory.read m a := by
  induction m with
  | nil => rfl
  | cons d m ih =>
    have hd : d.1 ≠ c.1 := hm d (by simp)
    have ih := ih (fun e he => hm e (by simp [he]))
    by_cases hlt : c.1 < d.1
    · simp [Memory.insert, hlt, Memory.read_cons]
    · simp only [Memory.insert, hlt, if_false, Memory.read_cons, ih]
      by_cases h1 : d.1 = a <;> by_cases h2 : c.1 = a <;> simp_all

/-- Read after write, one byte, for any list (R59). -/
theorem Memory.read_write (m : Memory) (a b : Nat) (v : Byte) :
    (m.write a v).read b = if b = a then v else m.read b := by
  unfold Memory.write
  by_cases hv : v = 0
  · by_cases h : b = a
    · simp [hv, h, Memory.read_filter_self]
    · simp [hv, h, Memory.read_filter_ne m h]
  · simp only [hv, if_false]
    rw [Memory.read_insert _ _ (by simp)]
    by_cases h : b = a
    · simp [h]
    · simp [h, Ne.symm h, Memory.read_filter_ne m h]

@[simp] theorem Memory.read_write_self (m : Memory) (a : Nat) (v : Byte) : (m.write a v).read a = v := by
  simp [Memory.read_write]

theorem Memory.mem_insert {c d : Host.Cell} {m : Memory} :
    d ∈ Memory.insert c m ↔ d = c ∨ d ∈ m := by
  induction m with
  | nil => simp [Memory.insert]
  | cons e m ih =>
    by_cases h : c.1 < e.1
    · simp [Memory.insert, h]
    · simp only [Memory.insert, h, if_false, List.mem_cons, ih]
      tauto

theorem Memory.sorted_insert {c : Host.Cell} {m : Memory} (hs : m.Pairwise (fun x y => x.1 < y.1))
    (hm : ∀ d ∈ m, d.1 ≠ c.1) : (Memory.insert c m).Pairwise (fun x y => x.1 < y.1) := by
  induction m with
  | nil => simp [Memory.insert]
  | cons e m ih =>
    obtain ⟨he, hs⟩ := List.pairwise_cons.1 hs
    by_cases h : c.1 < e.1
    · simp only [Memory.insert, h, if_true, List.pairwise_cons, List.mem_cons]
      exact ⟨by rintro d (rfl | hd); exacts [h, h.trans (he d hd)], he, hs⟩
    · have hne : e.1 ≠ c.1 := hm e (by simp)
      simp only [Memory.insert, h, if_false, List.pairwise_cons]
      refine ⟨fun d hd => ?_, ih hs (fun d hd => hm d (by simp [hd]))⟩
      rcases Memory.mem_insert.1 hd with rfl | hd
      exacts [by omega, he d hd]

/-- Every write keeps the canonical form. -/
theorem Memory.wf_write {m : Memory} (h : m.wf) (a : Nat) (v : Byte) : (m.write a v).wf := by
  have hs : (m.filter (fun c => c.1 != a)).Pairwise (fun x y => x.1 < y.1) := h.1.filter _
  unfold Memory.write
  by_cases hv : v = 0
  · rw [if_pos hv]
    exact ⟨hs, fun c hc => h.2 c (List.mem_filter.1 hc).1⟩
  · simp only [hv, if_false]
    refine ⟨Memory.sorted_insert hs (by simp), fun c hc => ?_⟩
    rcases Memory.mem_insert.1 hc with rfl | hc
    exacts [hv, h.2 c (List.mem_filter.1 hc).1]

/-- A write lists no address beyond those listed before and its own. -/
theorem Memory.bound_write {m : Memory} {n a : Nat} (h : ∀ c ∈ m, c.1 < n) (ha : a < n) (v : Byte) :
    ∀ c ∈ m.write a v, c.1 < n := by
  intro c hc
  unfold Memory.write at hc
  by_cases hv : v = 0
  · simp only [hv, if_true] at hc
    exact h c (List.mem_filter.1 hc).1
  · simp only [hv, if_false] at hc
    rcases Memory.mem_insert.1 hc with rfl | hc
    exacts [ha, h c (List.mem_filter.1 hc).1]

/-! ## Little-endian accesses -/

theorem Memory.wf_writeLE {m : Memory} (h : m.wf) (a n v : Nat) : (m.writeLE a n v).wf := by
  induction n generalizing m a v with
  | zero => exact h
  | succ n ih => exact ih (Memory.wf_write h _ _) _ _

theorem Memory.bound_writeLE {m : Memory} {b a n : Nat} (h : ∀ c ∈ m, c.1 < b) (ha : a + n ≤ b) (v : Nat) :
    ∀ c ∈ m.writeLE a n v, c.1 < b := by
  induction n generalizing m a v with
  | zero => exact h
  | succ n ih => exact ih (Memory.bound_write h (by omega) _) (by omega) _

/-- A write of `n` bytes, byte by byte: `MEM[a + k] <- v[8k+7:8k]`, the others unchanged (R53). -/
theorem Memory.read_writeLE (m : Memory) (a n v x : Nat) :
    (m.writeLE a n v).read x =
      if a ≤ x ∧ x < a + n then BitVec.ofNat 8 (v / 256 ^ (x - a)) else m.read x := by
  induction n generalizing m a v with
  | zero => simp [Memory.writeLE, show ¬ (a ≤ x ∧ x < a) by omega]
  | succ n ih =>
    simp only [Memory.writeLE, ih]
    by_cases hx : x = a
    · subst hx
      simp
    · by_cases h1 : a + 1 ≤ x ∧ x < a + 1 + n
      · obtain ⟨k, rfl⟩ : ∃ k, x = a + 1 + k := ⟨x - (a + 1), by omega⟩
        have e1 : a + 1 + k - a = k + 1 := by omega
        rw [if_pos h1, if_pos (by omega), Nat.add_sub_cancel_left, e1, Nat.pow_succ', Nat.div_div_eq_div_mul]
      · rw [if_neg h1, if_neg (by omega), Memory.read_write, if_neg hx]

/-- An `n`-byte read is an unsigned value of `8n` bits (R52). -/
theorem Memory.readLE_lt (m : Memory) (a n : Nat) : m.readLE a n < 256 ^ n := by
  induction n generalizing a with
  | zero => simp [Memory.readLE]
  | succ n ih =>
    have h1 := ih (a + 1)
    have h2 : (m.read a).toNat < 256 := (m.read a).isLt
    simp only [Memory.readLE, Nat.pow_succ]
    omega

/-- Byte `k` of an `n`-byte read is `MEM[a + k]` (R52). -/
theorem Memory.readLE_byte (m : Memory) (a n k : Nat) :
    m.readLE a n / 256 ^ k % 256 = if k < n then (m.read (a + k)).toNat else 0 := by
  induction n generalizing a k with
  | zero => simp [Memory.readLE]
  | succ n ih =>
    have h2 : (m.read a).toNat < 256 := (m.read a).isLt
    cases k with
    | zero =>
      simp only [Memory.readLE, Nat.pow_zero, Nat.div_one, Nat.zero_lt_succ, if_true, Nat.add_zero]
      omega
    | succ k =>
      have h3 := ih (a + 1) k
      rw [Nat.pow_succ', ← Nat.div_div_eq_div_mul]
      have h4 : m.readLE a (n + 1) / 256 = m.readLE (a + 1) n := by
        simp only [Memory.readLE]; omega
      rw [h4, h3, show a + 1 + k = a + (k + 1) by omega]
      by_cases hk : k < n <;> simp [hk]

/-- A read depends on its own bytes only (R52). -/
theorem Memory.readLE_congr {m m' : Memory} {a n : Nat} (h : ∀ x, a ≤ x → x < a + n → m'.read x = m.read x) :
    m'.readLE a n = m.readLE a n := by
  induction n generalizing a with
  | zero => rfl
  | succ n ih =>
    simp only [Memory.readLE]
    rw [h a (by omega) (by omega), ih (fun x h1 h2 => h x (by omega) (by omega))]

end Sys2Proof.Machine
end

