-- ==== Sys2Proof/Laws/State.lean ====
section
/-! SUPPORT. One lemma per field per named update of the state, each true by unfolding, so that no later proof unfolds a
record update; and the reset state field by field. -/

namespace Sys2Proof.Machine

/-! ## respond -/

@[simp] theorem respond_start (r0 r1 : Word64) (s : State) :
    (respond r0 r1 s).start = s.start := rfl
@[simp] theorem respond_endAddr (r0 r1 : Word64) (s : State) :
    (respond r0 r1 s).endAddr = s.endAddr := rfl
@[simp] theorem respond_cur (r0 r1 : Word64) (s : State) :
    (respond r0 r1 s).cur = s.cur := rfl
@[simp] theorem respond_bits (r0 r1 : Word64) (s : State) :
    (respond r0 r1 s).bits = s.bits := rfl
@[simp] theorem respond_bc (r0 r1 : Word64) (s : State) :
    (respond r0 r1 s).bc = s.bc := rfl
@[simp] theorem respond_act (r0 r1 : Word64) (s : State) :
    (respond r0 r1 s).act = s.act := rfl
@[simp] theorem respond_ovf (r0 r1 : Word64) (s : State) :
    (respond r0 r1 s).ovf = s.ovf := rfl
@[simp] theorem respond_exh (r0 r1 : Word64) (s : State) :
    (respond r0 r1 s).exh = s.exh := rfl
@[simp] theorem respond_errFlags (r0 r1 : Word64) (s : State) :
    (respond r0 r1 s).errFlags = s.errFlags := rfl
@[simp] theorem respond_errKind (r0 r1 : Word64) (s : State) :
    (respond r0 r1 s).errKind = s.errKind := rfl
@[simp] theorem respond_errOff (r0 r1 : Word64) (s : State) :
    (respond r0 r1 s).errOff = s.errOff := rfl
@[simp] theorem respond_errRsn (r0 r1 : Word64) (s : State) :
    (respond r0 r1 s).errRsn = s.errRsn := rfl
@[simp] theorem respond_mem (r0 r1 : Word64) (s : State) :
    (respond r0 r1 s).mem = s.mem := rfl
@[simp] theorem respond_response (r0 r1 : Word64) (s : State) :
    (respond r0 r1 s).response = some { st := 0, fl := flags s, res0 := r0, res1 := r1 } := rfl
@[simp] theorem respond_host (r0 r1 : Word64) (s : State) :
    (respond r0 r1 s).host = s.host := rfl
@[simp] theorem respond_cfg (r0 r1 : Word64) (s : State) :
    (respond r0 r1 s).cfg = s.cfg := rfl
@[simp] theorem respond_freeUses (r0 r1 : Word64) (s : State) :
    (respond r0 r1 s).freeUses = s.freeUses := rfl

/-! ## raise -/

@[simp] theorem raise_start (k : ErrKind) (o : Word64) (r : BitVec 16) (s : State) :
    (raise k o r s).start = s.start := rfl
@[simp] theorem raise_endAddr (k : ErrKind) (o : Word64) (r : BitVec 16) (s : State) :
    (raise k o r s).endAddr = s.endAddr := rfl
@[simp] theorem raise_cur (k : ErrKind) (o : Word64) (r : BitVec 16) (s : State) :
    (raise k o r s).cur = s.cur := rfl
@[simp] theorem raise_bits (k : ErrKind) (o : Word64) (r : BitVec 16) (s : State) :
    (raise k o r s).bits = s.bits := rfl
@[simp] theorem raise_bc (k : ErrKind) (o : Word64) (r : BitVec 16) (s : State) :
    (raise k o r s).bc = s.bc := rfl
@[simp] theorem raise_act (k : ErrKind) (o : Word64) (r : BitVec 16) (s : State) :
    (raise k o r s).act = s.act := rfl
@[simp] theorem raise_ovf (k : ErrKind) (o : Word64) (r : BitVec 16) (s : State) :
    (raise k o r s).ovf = s.ovf := rfl
@[simp] theorem raise_exh (k : ErrKind) (o : Word64) (r : BitVec 16) (s : State) :
    (raise k o r s).exh = s.exh := rfl
@[simp] theorem raise_errFlags (k : ErrKind) (o : Word64) (r : BitVec 16) (s : State) :
    (raise k o r s).errFlags = s.errFlags ||| stickyBit k := rfl
@[simp] theorem raise_errKind (k : ErrKind) (o : Word64) (r : BitVec 16) (s : State) :
    (raise k o r s).errKind = errCode k := rfl
@[simp] theorem raise_errOff (k : ErrKind) (o : Word64) (r : BitVec 16) (s : State) :
    (raise k o r s).errOff = recordedOffset k o := rfl
@[simp] theorem raise_errRsn (k : ErrKind) (o : Word64) (r : BitVec 16) (s : State) :
    (raise k o r s).errRsn = r := rfl
@[simp] theorem raise_mem (k : ErrKind) (o : Word64) (r : BitVec 16) (s : State) :
    (raise k o r s).mem = s.mem := rfl
@[simp] theorem raise_response (k : ErrKind) (o : Word64) (r : BitVec 16) (s : State) :
    (raise k o r s).response = some { st := errCode k, fl := flags s, res0 := recordedOffset k o, res1 := zext64 r } := rfl
@[simp] theorem raise_host (k : ErrKind) (o : Word64) (r : BitVec 16) (s : State) :
    (raise k o r s).host = s.host := rfl
@[simp] theorem raise_cfg (k : ErrKind) (o : Word64) (r : BitVec 16) (s : State) :
    (raise k o r s).cfg = s.cfg := rfl
@[simp] theorem raise_freeUses (k : ErrKind) (o : Word64) (r : BitVec 16) (s : State) :
    (raise k o r s).freeUses = s.freeUses := rfl

/-! ## latchOverflow -/

@[simp] theorem latchOverflow_start (s : State) :
    (latchOverflow s).start = s.start := rfl
@[simp] theorem latchOverflow_endAddr (s : State) :
    (latchOverflow s).endAddr = s.endAddr := rfl
@[simp] theorem latchOverflow_cur (s : State) :
    (latchOverflow s).cur = s.cur := rfl
@[simp] theorem latchOverflow_bits (s : State) :
    (latchOverflow s).bits = s.bits := rfl
@[simp] theorem latchOverflow_bc (s : State) :
    (latchOverflow s).bc = s.bc := rfl
@[simp] theorem latchOverflow_act (s : State) :
    (latchOverflow s).act = s.act := rfl
@[simp] theorem latchOverflow_ovf (s : State) :
    (latchOverflow s).ovf = true := rfl
@[simp] theorem latchOverflow_exh (s : State) :
    (latchOverflow s).exh = true := rfl
@[simp] theorem latchOverflow_errFlags (s : State) :
    (latchOverflow s).errFlags = s.errFlags := rfl
@[simp] theorem latchOverflow_errKind (s : State) :
    (latchOverflow s).errKind = s.errKind := rfl
@[simp] theorem latchOverflow_errOff (s : State) :
    (latchOverflow s).errOff = s.errOff := rfl
@[simp] theorem latchOverflow_errRsn (s : State) :
    (latchOverflow s).errRsn = s.errRsn := rfl
@[simp] theorem latchOverflow_mem (s : State) :
    (latchOverflow s).mem = s.mem := rfl
@[simp] theorem latchOverflow_response (s : State) :
    (latchOverflow s).response = s.response := rfl
@[simp] theorem latchOverflow_host (s : State) :
    (latchOverflow s).host = s.host := rfl
@[simp] theorem latchOverflow_cfg (s : State) :
    (latchOverflow s).cfg = s.cfg := rfl
@[simp] theorem latchOverflow_freeUses (s : State) :
    (latchOverflow s).freeUses = s.freeUses := rfl

/-! ## writeBc -/

@[simp] theorem writeBc_start (v : Word32) (s : State) :
    (writeBc v s).start = s.start := rfl
@[simp] theorem writeBc_endAddr (v : Word32) (s : State) :
    (writeBc v s).endAddr = s.endAddr := rfl
@[simp] theorem writeBc_cur (v : Word32) (s : State) :
    (writeBc v s).cur = s.cur := rfl
@[simp] theorem writeBc_bits (v : Word32) (s : State) :
    (writeBc v s).bits = s.bits := rfl
@[simp] theorem writeBc_bc (v : Word32) (s : State) :
    (writeBc v s).bc = v := rfl
@[simp] theorem writeBc_act (v : Word32) (s : State) :
    (writeBc v s).act = s.act := rfl
@[simp] theorem writeBc_ovf (v : Word32) (s : State) :
    (writeBc v s).ovf = s.ovf := rfl
@[simp] theorem writeBc_exh (v : Word32) (s : State) :
    (writeBc v s).exh = s.exh := rfl
@[simp] theorem writeBc_errFlags (v : Word32) (s : State) :
    (writeBc v s).errFlags = s.errFlags := rfl
@[simp] theorem writeBc_errKind (v : Word32) (s : State) :
    (writeBc v s).errKind = s.errKind := rfl
@[simp] theorem writeBc_errOff (v : Word32) (s : State) :
    (writeBc v s).errOff = s.errOff := rfl
@[simp] theorem writeBc_errRsn (v : Word32) (s : State) :
    (writeBc v s).errRsn = s.errRsn := rfl
@[simp] theorem writeBc_mem (v : Word32) (s : State) :
    (writeBc v s).mem = s.mem := rfl
@[simp] theorem writeBc_response (v : Word32) (s : State) :
    (writeBc v s).response = s.response := rfl
@[simp] theorem writeBc_host (v : Word32) (s : State) :
    (writeBc v s).host = s.host := rfl
@[simp] theorem writeBc_cfg (v : Word32) (s : State) :
    (writeBc v s).cfg = s.cfg := rfl
@[simp] theorem writeBc_freeUses (v : Word32) (s : State) :
    (writeBc v s).freeUses = s.freeUses := rfl

/-! ## clearErrFlags -/

@[simp] theorem clearErrFlags_start (v : BitVec 5) (s : State) :
    (clearErrFlags v s).start = s.start := rfl
@[simp] theorem clearErrFlags_endAddr (v : BitVec 5) (s : State) :
    (clearErrFlags v s).endAddr = s.endAddr := rfl
@[simp] theorem clearErrFlags_cur (v : BitVec 5) (s : State) :
    (clearErrFlags v s).cur = s.cur := rfl
@[simp] theorem clearErrFlags_bits (v : BitVec 5) (s : State) :
    (clearErrFlags v s).bits = s.bits := rfl
@[simp] theorem clearErrFlags_bc (v : BitVec 5) (s : State) :
    (clearErrFlags v s).bc = s.bc := rfl
@[simp] theorem clearErrFlags_act (v : BitVec 5) (s : State) :
    (clearErrFlags v s).act = s.act := rfl
@[simp] theorem clearErrFlags_ovf (v : BitVec 5) (s : State) :
    (clearErrFlags v s).ovf = s.ovf := rfl
@[simp] theorem clearErrFlags_exh (v : BitVec 5) (s : State) :
    (clearErrFlags v s).exh = s.exh := rfl
@[simp] theorem clearErrFlags_errFlags (v : BitVec 5) (s : State) :
    (clearErrFlags v s).errFlags = s.errFlags &&& ~~~v := rfl
@[simp] theorem clearErrFlags_errKind (v : BitVec 5) (s : State) :
    (clearErrFlags v s).errKind = s.errKind := rfl
@[simp] theorem clearErrFlags_errOff (v : BitVec 5) (s : State) :
    (clearErrFlags v s).errOff = s.errOff := rfl
@[simp] theorem clearErrFlags_errRsn (v : BitVec 5) (s : State) :
    (clearErrFlags v s).errRsn = s.errRsn := rfl
@[simp] theorem clearErrFlags_mem (v : BitVec 5) (s : State) :
    (clearErrFlags v s).mem = s.mem := rfl
@[simp] theorem clearErrFlags_response (v : BitVec 5) (s : State) :
    (clearErrFlags v s).response = s.response := rfl
@[simp] theorem clearErrFlags_host (v : BitVec 5) (s : State) :
    (clearErrFlags v s).host = s.host := rfl
@[simp] theorem clearErrFlags_cfg (v : BitVec 5) (s : State) :
    (clearErrFlags v s).cfg = s.cfg := rfl
@[simp] theorem clearErrFlags_freeUses (v : BitVec 5) (s : State) :
    (clearErrFlags v s).freeUses = s.freeUses := rfl

/-! ## commitSession -/

@[simp] theorem commitSession_start (a e c w : Word64) (b : Word32) (s : State) :
    (commitSession a e c w b s).start = a := rfl
@[simp] theorem commitSession_endAddr (a e c w : Word64) (b : Word32) (s : State) :
    (commitSession a e c w b s).endAddr = e := rfl
@[simp] theorem commitSession_cur (a e c w : Word64) (b : Word32) (s : State) :
    (commitSession a e c w b s).cur = c := rfl
@[simp] theorem commitSession_bits (a e c w : Word64) (b : Word32) (s : State) :
    (commitSession a e c w b s).bits = w := rfl
@[simp] theorem commitSession_bc (a e c w : Word64) (b : Word32) (s : State) :
    (commitSession a e c w b s).bc = b := rfl
@[simp] theorem commitSession_act (a e c w : Word64) (b : Word32) (s : State) :
    (commitSession a e c w b s).act = true := rfl
@[simp] theorem commitSession_ovf (a e c w : Word64) (b : Word32) (s : State) :
    (commitSession a e c w b s).ovf = false := rfl
@[simp] theorem commitSession_exh (a e c w : Word64) (b : Word32) (s : State) :
    (commitSession a e c w b s).exh = false := rfl
@[simp] theorem commitSession_errFlags (a e c w : Word64) (b : Word32) (s : State) :
    (commitSession a e c w b s).errFlags = s.errFlags := rfl
@[simp] theorem commitSession_errKind (a e c w : Word64) (b : Word32) (s : State) :
    (commitSession a e c w b s).errKind = s.errKind := rfl
@[simp] theorem commitSession_errOff (a e c w : Word64) (b : Word32) (s : State) :
    (commitSession a e c w b s).errOff = s.errOff := rfl
@[simp] theorem commitSession_errRsn (a e c w : Word64) (b : Word32) (s : State) :
    (commitSession a e c w b s).errRsn = s.errRsn := rfl
@[simp] theorem commitSession_mem (a e c w : Word64) (b : Word32) (s : State) :
    (commitSession a e c w b s).mem = s.mem := rfl
@[simp] theorem commitSession_response (a e c w : Word64) (b : Word32) (s : State) :
    (commitSession a e c w b s).response = s.response := rfl
@[simp] theorem commitSession_host (a e c w : Word64) (b : Word32) (s : State) :
    (commitSession a e c w b s).host = s.host := rfl
@[simp] theorem commitSession_cfg (a e c w : Word64) (b : Word32) (s : State) :
    (commitSession a e c w b s).cfg = s.cfg := rfl
@[simp] theorem commitSession_freeUses (a e c w : Word64) (b : Word32) (s : State) :
    (commitSession a e c w b s).freeUses = s.freeUses := rfl

/-! ## refill -/

@[simp] theorem refill_start (c w : Word64) (b : Word32) (x : Bool) (s : State) :
    (refill c w b x s).start = s.start := rfl
@[simp] theorem refill_endAddr (c w : Word64) (b : Word32) (x : Bool) (s : State) :
    (refill c w b x s).endAddr = s.endAddr := rfl
@[simp] theorem refill_cur (c w : Word64) (b : Word32) (x : Bool) (s : State) :
    (refill c w b x s).cur = c := rfl
@[simp] theorem refill_bits (c w : Word64) (b : Word32) (x : Bool) (s : State) :
    (refill c w b x s).bits = w := rfl
@[simp] theorem refill_bc (c w : Word64) (b : Word32) (x : Bool) (s : State) :
    (refill c w b x s).bc = b := rfl
@[simp] theorem refill_act (c w : Word64) (b : Word32) (x : Bool) (s : State) :
    (refill c w b x s).act = s.act := rfl
@[simp] theorem refill_ovf (c w : Word64) (b : Word32) (x : Bool) (s : State) :
    (refill c w b x s).ovf = s.ovf := rfl
@[simp] theorem refill_exh (c w : Word64) (b : Word32) (x : Bool) (s : State) :
    (refill c w b x s).exh = x := rfl
@[simp] theorem refill_errFlags (c w : Word64) (b : Word32) (x : Bool) (s : State) :
    (refill c w b x s).errFlags = s.errFlags := rfl
@[simp] theorem refill_errKind (c w : Word64) (b : Word32) (x : Bool) (s : State) :
    (refill c w b x s).errKind = s.errKind := rfl
@[simp] theorem refill_errOff (c w : Word64) (b : Word32) (x : Bool) (s : State) :
    (refill c w b x s).errOff = s.errOff := rfl
@[simp] theorem refill_errRsn (c w : Word64) (b : Word32) (x : Bool) (s : State) :
    (refill c w b x s).errRsn = s.errRsn := rfl
@[simp] theorem refill_mem (c w : Word64) (b : Word32) (x : Bool) (s : State) :
    (refill c w b x s).mem = s.mem := rfl
@[simp] theorem refill_response (c w : Word64) (b : Word32) (x : Bool) (s : State) :
    (refill c w b x s).response = s.response := rfl
@[simp] theorem refill_host (c w : Word64) (b : Word32) (x : Bool) (s : State) :
    (refill c w b x s).host = s.host := rfl
@[simp] theorem refill_cfg (c w : Word64) (b : Word32) (x : Bool) (s : State) :
    (refill c w b x s).cfg = s.cfg := rfl
@[simp] theorem refill_freeUses (c w : Word64) (b : Word32) (x : Bool) (s : State) :
    (refill c w b x s).freeUses = s.freeUses := rfl

/-! ## memWrite -/

@[simp] theorem memWrite_start (a n v : Nat) (s : State) :
    (memWrite a n v s).start = s.start := rfl
@[simp] theorem memWrite_endAddr (a n v : Nat) (s : State) :
    (memWrite a n v s).endAddr = s.endAddr := rfl
@[simp] theorem memWrite_cur (a n v : Nat) (s : State) :
    (memWrite a n v s).cur = s.cur := rfl
@[simp] theorem memWrite_bits (a n v : Nat) (s : State) :
    (memWrite a n v s).bits = s.bits := rfl
@[simp] theorem memWrite_bc (a n v : Nat) (s : State) :
    (memWrite a n v s).bc = s.bc := rfl
@[simp] theorem memWrite_act (a n v : Nat) (s : State) :
    (memWrite a n v s).act = s.act := rfl
@[simp] theorem memWrite_ovf (a n v : Nat) (s : State) :
    (memWrite a n v s).ovf = s.ovf := rfl
@[simp] theorem memWrite_exh (a n v : Nat) (s : State) :
    (memWrite a n v s).exh = s.exh := rfl
@[simp] theorem memWrite_errFlags (a n v : Nat) (s : State) :
    (memWrite a n v s).errFlags = s.errFlags := rfl
@[simp] theorem memWrite_errKind (a n v : Nat) (s : State) :
    (memWrite a n v s).errKind = s.errKind := rfl
@[simp] theorem memWrite_errOff (a n v : Nat) (s : State) :
    (memWrite a n v s).errOff = s.errOff := rfl
@[simp] theorem memWrite_errRsn (a n v : Nat) (s : State) :
    (memWrite a n v s).errRsn = s.errRsn := rfl
@[simp] theorem memWrite_mem (a n v : Nat) (s : State) :
    (memWrite a n v s).mem = s.mem.writeLE a n v := rfl
@[simp] theorem memWrite_response (a n v : Nat) (s : State) :
    (memWrite a n v s).response = s.response := rfl
@[simp] theorem memWrite_host (a n v : Nat) (s : State) :
    (memWrite a n v s).host = s.host := rfl
@[simp] theorem memWrite_cfg (a n v : Nat) (s : State) :
    (memWrite a n v s).cfg = s.cfg := rfl
@[simp] theorem memWrite_freeUses (a n v : Nat) (s : State) :
    (memWrite a n v s).freeUses = s.freeUses := rfl

/-! ## useFreeValue -/

@[simp] theorem useFreeValue_start (s : State) :
    (useFreeValue s).start = s.start := rfl
@[simp] theorem useFreeValue_endAddr (s : State) :
    (useFreeValue s).endAddr = s.endAddr := rfl
@[simp] theorem useFreeValue_cur (s : State) :
    (useFreeValue s).cur = s.cur := rfl
@[simp] theorem useFreeValue_bits (s : State) :
    (useFreeValue s).bits = s.bits := rfl
@[simp] theorem useFreeValue_bc (s : State) :
    (useFreeValue s).bc = s.bc := rfl
@[simp] theorem useFreeValue_act (s : State) :
    (useFreeValue s).act = s.act := rfl
@[simp] theorem useFreeValue_ovf (s : State) :
    (useFreeValue s).ovf = s.ovf := rfl
@[simp] theorem useFreeValue_exh (s : State) :
    (useFreeValue s).exh = s.exh := rfl
@[simp] theorem useFreeValue_errFlags (s : State) :
    (useFreeValue s).errFlags = s.errFlags := rfl
@[simp] theorem useFreeValue_errKind (s : State) :
    (useFreeValue s).errKind = s.errKind := rfl
@[simp] theorem useFreeValue_errOff (s : State) :
    (useFreeValue s).errOff = s.errOff := rfl
@[simp] theorem useFreeValue_errRsn (s : State) :
    (useFreeValue s).errRsn = s.errRsn := rfl
@[simp] theorem useFreeValue_mem (s : State) :
    (useFreeValue s).mem = s.mem := rfl
@[simp] theorem useFreeValue_response (s : State) :
    (useFreeValue s).response = s.response := rfl
@[simp] theorem useFreeValue_host (s : State) :
    (useFreeValue s).host = s.host := rfl
@[simp] theorem useFreeValue_cfg (s : State) :
    (useFreeValue s).cfg = s.cfg := rfl
@[simp] theorem useFreeValue_freeUses (s : State) :
    (useFreeValue s).freeUses = s.freeUses + 1 := rfl

/-! ## resetEngine -/

@[simp] theorem resetEngine_start (s : State) :
    (resetEngine s).start = State.reset.start := rfl
@[simp] theorem resetEngine_endAddr (s : State) :
    (resetEngine s).endAddr = State.reset.endAddr := rfl
@[simp] theorem resetEngine_cur (s : State) :
    (resetEngine s).cur = State.reset.cur := rfl
@[simp] theorem resetEngine_bits (s : State) :
    (resetEngine s).bits = State.reset.bits := rfl
@[simp] theorem resetEngine_bc (s : State) :
    (resetEngine s).bc = State.reset.bc := rfl
@[simp] theorem resetEngine_act (s : State) :
    (resetEngine s).act = State.reset.act := rfl
@[simp] theorem resetEngine_ovf (s : State) :
    (resetEngine s).ovf = State.reset.ovf := rfl
@[simp] theorem resetEngine_exh (s : State) :
    (resetEngine s).exh = State.reset.exh := rfl
@[simp] theorem resetEngine_errFlags (s : State) :
    (resetEngine s).errFlags = State.reset.errFlags := rfl
@[simp] theorem resetEngine_errKind (s : State) :
    (resetEngine s).errKind = State.reset.errKind := rfl
@[simp] theorem resetEngine_errOff (s : State) :
    (resetEngine s).errOff = State.reset.errOff := rfl
@[simp] theorem resetEngine_errRsn (s : State) :
    (resetEngine s).errRsn = State.reset.errRsn := rfl
@[simp] theorem resetEngine_mem (s : State) :
    (resetEngine s).mem = s.mem := rfl
@[simp] theorem resetEngine_response (s : State) :
    (resetEngine s).response = State.reset.response := rfl
@[simp] theorem resetEngine_host (s : State) :
    (resetEngine s).host = s.host := rfl
@[simp] theorem resetEngine_cfg (s : State) :
    (resetEngine s).cfg = s.cfg := rfl
@[simp] theorem resetEngine_freeUses (s : State) :
    (resetEngine s).freeUses = s.freeUses := rfl

end Sys2Proof.Machine
end

