-- ==== Sys2Proof/Laws/Ops.lean ====
section
/-! SUPPORT. One lemma per shared operation that says what it can do: the parameter, the functions of the notation (spec
rules R8 to R10), guarded reads, the flags, the operand forms, register numbers, and the parts of INIT and LOAD. -/

namespace Sys2Proof

theorem Config.memSize_pos (c : Config) : 0 < c.memSize := Nat.succ_pos _

/-- `MEM_SIZE <= 2^63` (R6). -/
theorem Config.memSize_le (c : Config) : c.memSize ≤ 2 ^ 63 := c.memTop.isLt

namespace Machine

/-! ## The notation -/

/-- `hb(v)` is the `k` with `2^k <= v < 2^(k+1)` (R10). -/
theorem hb_spec {v : Nat} (h : v ≠ 0) : 2 ^ hb v ≤ v ∧ v < 2 ^ (hb v + 1) :=
  ⟨Nat.log2_self_le h, Nat.lt_log2_self⟩

theorem hb_lt {v n : Nat} (h : v ≠ 0) (hv : v < 2 ^ n) : hb v < n := (Nat.log2_lt h).2 hv

/-- `hb(v)` is the only such `k` (R10). -/
theorem hb_unique {v k : Nat} (h1 : 2 ^ k ≤ v) (h2 : v < 2 ^ (k + 1)) : hb v = k := by
  have h : v ≠ 0 := by have := Nat.two_pow_pos k; omega
  exact ((Nat.le_antisymm_iff).2
    ⟨Nat.lt_succ_iff.1 ((Nat.log2_lt h).2 h2), (Nat.le_log2 h).2 h1⟩)

/-- R9. -/
theorem shl64_toNat (w : Word64) (k : Nat) : (shl64 w k).toNat = w.toNat * 2 ^ k % 2 ^ 64 := by
  simp [shl64, BitVec.toNat_shiftLeft, Nat.shiftLeft_eq]

/-- R9. -/
theorem shr64_toNat (w : Word64) (k : Nat) : (shr64 w k).toNat = w.toNat / 2 ^ k := by
  simp [shr64, BitVec.toNat_ushiftRight, Nat.shiftRight_eq_div_pow]

theorem zext64_toNat {n : Nat} (h : n ≤ 64) (v : BitVec n) : (zext64 v).toNat = v.toNat := by
  have : v.toNat < 2 ^ 64 := lt_of_lt_of_le v.isLt (Nat.pow_le_pow_right (by decide) h)
  rw [zext64, BitVec.toNat_setWidth, Nat.mod_eq_of_lt this]

/-! ## Memory accesses -/

@[simp] theorem inBounds_eq_true (s : State) (a n : Nat) : inBounds s a n = true ↔ a + n ≤ s.cfg.memSize := by
  simp [inBounds]

/-- `MemRead`: the guard, then the little-endian value (R52, R56). -/
theorem memRead_eq (s : State) (a n : Nat) :
    memRead s a n = if a + n ≤ s.cfg.memSize then some (s.mem.readLE a n) else none := by
  by_cases h : a + n ≤ s.cfg.memSize <;> simp [memRead, inBounds, h]

/-- A 64-bit word made of an `n`-byte read holds those bytes and zeros above them (R51, R137). -/
theorem holdsBytes_readLE (m : Memory) (a : Nat) {n : Nat} (hn : n ≤ 8) :
    holdsBytes m a n (BitVec.ofNat 64 (m.readLE a n)) := by
  intro k hk
  have h := m.readLE_byte a n k
  have h8 : m.readLE a n < 2 ^ 64 :=
    lt_of_lt_of_le (m.readLE_lt a n) (le_trans (Nat.pow_le_pow_right (by decide) hn) (by decide))
  apply BitVec.eq_of_toNat_eq
  have e : (byteOf (BitVec.ofNat 64 (m.readLE a n)) k).toNat = m.readLE a n / 256 ^ k % 256 := by
    simp only [byteOf, BitVec.extractLsb'_toNat, BitVec.toNat_ofNat, Nat.mod_eq_of_lt h8, Nat.shiftRight_eq_div_pow,
      Nat.pow_mul]
  rw [e, h]
  split <;> simp

/-- What a window that holds eight bytes shows bit by bit (R24). -/
theorem getLsbD_of_holdsBytes {m : Memory} {a n : Nat} {w : Word64} (h : holdsBytes m a n w) {p : Nat} (hp : p < 64)
    (hn : p / 8 < n) : w.getLsbD p = streamBit m (8 * a + p) := by
  have hk := h (p / 8) (by omega)
  rw [if_pos hn] at hk
  have e : w.getLsbD p = (byteOf w (p / 8)).getLsbD (p % 8) := by
    simp only [byteOf, BitVec.getLsbD_extractLsb', show p % 8 < 8 from Nat.mod_lt _ (by decide), decide_true,
      Bool.true_and]
    congr 1
    omega
  rw [e, hk, streamBit]
  have e1 : a + p / 8 = (8 * a + p) / 8 := by omega
  have e2 : p % 8 = (8 * a + p) % 8 := by omega
  rw [e1, e2]

/-! ## Flags -/

theorem flags_bit0 (s : State) : (flags s).getLsbD 0 = s.act := by
  cases h : s.act <;> cases h1 : s.exh <;> cases h2 : s.ovf <;> cases h3 : eosFlag s <;> simp [flags, h, h1, h2, h3]

theorem eosFlag_iff (s : State) : eosFlag s = true ↔ s.act = true ∧ s.cur = s.start ∧ s.bc = 64 := by
  simp [eosFlag, isEndOfStream]

theorem flags_bit3 (s : State) : (flags s).getLsbD 3 = eosFlag s := by
  cases h : s.act <;> cases h1 : s.exh <;> cases h2 : s.ovf <;> cases h3 : eosFlag s <;> simp [flags, h, h1, h2, h3]

theorem flags_bit1 (s : State) : (flags s).getLsbD 1 = s.ovf := by
  cases h : s.act <;> cases h1 : s.exh <;> cases h2 : s.ovf <;> cases h3 : eosFlag s <;> simp [flags, h, h1, h2, h3]

theorem flags_bit2 (s : State) : (flags s).getLsbD 2 = s.exh := by
  cases h : s.act <;> cases h1 : s.exh <;> cases h2 : s.ovf <;> cases h3 : eosFlag s <;> simp [flags, h, h1, h2, h3]

/-- `FLAGS` depends on the cursor registers and the stored flags only (R26). -/
theorem flags_congr {s t : State} (h1 : t.start = s.start) (h2 : t.cur = s.cur) (h3 : t.bc = s.bc) (h4 : sameFlags s t) :
    flags t = flags s := by
  obtain ⟨h4, h5, h6⟩ := h4
  simp only [flags, eosFlag, h1, h2, h3, h4, h5, h6]

/-! ## Operand forms and register numbers -/

/-- The two forms of a peek (R147). -/
theorem peekOperands_eq (c : Bool) (w : Word64) (b : Word32) (s : State) (h : c = false ∨ s.act = true) :
    peekOperands c w b s = some (if c then s.bits else w, if c then s.bc else b) := by
  rcases h with rfl | h
  · rfl
  · cases c <;> simp [peekOperands, h]

theorem peekOperands_none {c : Bool} {w : Word64} {b : Word32} {s : State} (hc : c = true) (h : s.act = false) :
    peekOperands c w b s = none := by
  simp [peekOperands, hc, h]

/-- The register a number names (R31). -/
theorem regOfNumber_ofNat (n : Word32) :
    regOfNumber n = ([.start, .endAddr, .cur, .bits, .bc, .flags, .errFlags, .errKind, .errOff, .errRsn] : List Reg)[n.toNat]? := by
  obtain h | h := Nat.lt_or_ge n.toNat 10
  · unfold regOfNumber
    interval_cases n.toNat <;> rfl
  · rw [List.getElem?_eq_none (by simpa using h)]
    unfold regOfNumber
    split <;> first | omega | rfl

/-! ## The parts of LOAD -/

/-- `reload` in bounds: the window is the eight bytes at the new `CUR` (R155). -/
theorem reload_of_le {cur : Word64} {bc : Word32} {exh : Bool} {s : State} (h : cur.toNat + 8 ≤ s.cfg.memSize) :
    reload cur bc exh s = afterLoad s cur (BitVec.ofNat 64 (s.mem.readLE cur.toNat 8)) bc exh s.ovf := by
  simp [reload, memRead_eq, h, respondWindow, respond, refill, afterLoad, zext64]

/-- `reload` out of bounds raises before any write (R52, R56). -/
theorem reload_of_lt {cur : Word64} {bc : Word32} {exh : Bool} {s : State} (h : s.cfg.memSize < cur.toNat + 8) :
    reload cur bc exh s = raise .indexOutOfRange 0 rsnMemRange s := by
  simp [reload, memRead_eq, show ¬ cur.toNat + 8 ≤ s.cfg.memSize by omega]

/-- The rebased count on the integers (R158). -/
theorem rebasedCount_toInt (bc : Word32) (k : Int) :
    ((rebasedCount bc k).toNat : Int) = ((bc.toNat : Int) - 64 * k) % 2 ^ 32 := by
  have h : (0 : Int) ≤ ((bc.toNat : Int) - k * 64) % 2 ^ 32 := Int.emod_nonneg _ (by decide)
  simp only [rebasedCount, Config.rewindUnit, BitVec.toNat_ofInt]
  rw [show (64 : Int) * k = k * 64 by ring]
  exact Int.toNat_of_nonneg h

/-- A step back that does not pass address 0. -/
theorem sub_ofNat_toNat {c : Word64} {k : Nat} (h : k ≤ c.toNat) : (c - BitVec.ofNat 64 k).toNat = c.toNat - k := by
  have hk : k < 2 ^ 64 := lt_of_le_of_lt h c.isLt
  rw [BitVec.toNat_sub_of_le]
  · rw [BitVec.toNat_ofNat, Nat.mod_eq_of_lt hk]
  · rw [BitVec.le_def, BitVec.toNat_ofNat, Nat.mod_eq_of_lt hk]
    exact h

end Machine

end Sys2Proof
end

