-- ==== Sys2Proof/Laws/Exec.lean ====
section
/-! SUPPORT. Said once, what a command can do: it raises, which changes the capture registers and the response alone, or
it does its work (`Work`) and responds; and the same for a command beat and for a step. Invariants and frames follow from
these instead of from the meanings. -/

namespace Sys2Proof.Machine

/-- The rows of LOAD's case table that write the cursor (R160): nothing moves (case 2, and case 3a with fewer than eight
bits consumed), or the window is reloaded at the new `CUR` (cases 3a, 3b, 3c). -/
def LoadMove (s : State) (cur bits : Word64) (bc : Word32) (exh : Bool) : Prop :=
  (cur = s.cur ∧ bits = s.bits ∧ bc = s.bc ∧
    ((exh = true ∧ s.cur = s.start) ∨ (exh = false ∧ s.start.toNat + 8 ≤ s.cur.toNat ∧ s.bc.toNat < 8))) ∨
  (cur.toNat + 8 ≤ s.cfg.memSize ∧ bits = BitVec.ofNat 64 (s.mem.readLE cur.toNat 8) ∧ s.cur ≠ s.start ∧
    ((exh = false ∧ s.start.toNat + 8 ≤ s.cur.toNat ∧ 8 ≤ s.bc.toNat ∧
        cur.toNat = s.cur.toNat - s.bc.toNat / 8 ∧ bc.toNat = s.bc.toNat % 8) ∨
      (exh = true ∧ s.cur.toNat < s.start.toNat + 8 ∧ s.cur.toNat < s.start.toNat + s.bc.toNat / 8 ∧
        cur = s.start ∧
        (bc.toNat : Int) = ((s.bc.toNat : Int) - 64 * ((s.cur.toNat : Int) - s.start.toNat)) % 2 ^ 32) ∨
      (exh = false ∧ s.cur.toNat < s.start.toNat + 8 ∧ s.start.toNat + s.bc.toNat / 8 ≤ s.cur.toNat ∧
        cur.toNat = s.cur.toNat - s.bc.toNat / 8 ∧
        (bc.toNat : Int) = ((s.bc.toNat : Int) - 64 * (s.bc.toNat / 8 : Nat)) % 2 ^ 32)))

/-- The work of a command that succeeds: the state `u` it has made when it responds. -/
def Work (i : Instr) (s u : State) : Prop :=
  match i with
  | .put24le a v => a.toNat + 3 ≤ s.cfg.memSize ∧
      u = memWrite (a.toNat + 2) 1 (v.toNat / 2 ^ 16 % 2 ^ 8) (memWrite a.toNat 2 (v.toNat % 2 ^ 16) s)
  | .init a e => a.toNat < e.toNat ∧ e.toNat ≤ s.cfg.memSize ∧ s.mem.read (e.toNat - 1) ≠ 0 ∧
      u = startSession a e (s.mem.read (e.toNat - 1)) s
  | .load => s.act = true ∧
      ((64 < s.bc.toNat ∧ u = latchOverflow s) ∨
        (s.bc.toNat ≤ 64 ∧ ∃ cur bits bc exh, LoadMove s cur bits bc exh ∧ u = refill cur bits bc exh s))
  | .wrreg n v =>
      (n = 4 ∧ s.act = true ∧ s.ovf = false ∧ u = writeBc (v.setWidth 32) s) ∨
        (n = 6 ∧ u = clearErrFlags (v.setWidth 5) s)
  | .hibit _ | .ispow2 _ | .mask _ | .clamp _ _ _ | .cyclelog _ _ | .mintlog _ _ | .get24le _ | .verify _ _ _
  | .chkarg _ _ | .chkstate _ _ | .chkpos _ _ _ | .peek _ _ _ _ | .peekf _ _ _ _ | .iseos _ _ _ _ | .rdreg _
  | .blkcmp => u = s

/-- How a command ends. -/
def Ends (i : Instr) (s t : State) : Prop :=
  (∃ k o r, t = raise k o r s ∧ (k ∈ canRaise i ∨ i = .load ∧ s.act = true ∧ k = .indexOutOfRange ∧ ¬ SessionInv s)) ∨
    (∃ u r0 r1, Work i s u ∧ t = respond r0 r1 u)

theorem Ends.raised {i : Instr} {s : State} (k : ErrKind) (o : Word64) (r : BitVec 16) (h : k ∈ canRaise i) :
    Ends i s (raise k o r s) := .inl ⟨k, o, r, rfl, .inl h⟩

theorem Ends.responded {i : Instr} {s u : State} (r0 r1 : Word64) (h : Work i s u) :
    Ends i s (respond r0 r1 u) := .inr ⟨u, r0, r1, h, rfl⟩

theorem execHibit_ends (v : Word32) (s : State) : ∃ t, execHibit v s = .next t ∧ Ends (.hibit v) s t := by
  unfold execHibit
  split
  exacts [⟨_, rfl, .raised _ _ _ (by simp [canRaise])⟩, ⟨_, rfl, .responded _ _ rfl⟩]

theorem execIspow2_ends (v : Word32) (s : State) : ∃ t, execIspow2 v s = .next t ∧ Ends (.ispow2 v) s t :=
  ⟨_, rfl, .responded _ _ rfl⟩

theorem execMask_ends (n : Word32) (s : State) : ∃ t, execMask n s = .next t ∧ Ends (.mask n) s t := by
  unfold execMask
  split
  exacts [⟨_, rfl, .raised _ _ _ (by simp [canRaise])⟩, ⟨_, rfl, .responded _ _ rfl⟩]

theorem execClamp_ends (v : Word64) (lo hi : Word32) (s : State) :
    ∃ t, execClamp v lo hi s = .next t ∧ Ends (.clamp v lo hi) s t := by
  unfold execClamp
  split
  exacts [⟨_, rfl, .raised _ _ _ (by simp [canRaise])⟩, ⟨_, rfl, .responded _ _ rfl⟩]

theorem execCyclelog_ends (h g : Word32) (s : State) :
    ∃ t, execCyclelog h g s = .next t ∧ Ends (.cyclelog h g) s t := by
  unfold execCyclelog
  split
  exacts [⟨_, rfl, .raised _ _ _ (by simp [canRaise])⟩, ⟨_, rfl, .responded _ _ rfl⟩]

theorem execMintlog_ends (n m : Word32) (s : State) :
    ∃ t, execMintlog n m s = .next t ∧ Ends (.mintlog n m) s t := by
  unfold execMintlog
  split
  · exact ⟨_, rfl, .raised _ _ _ (by simp [canRaise])⟩
  · split
    exacts [⟨_, rfl, .raised _ _ _ (by simp [canRaise])⟩, ⟨_, rfl, .responded _ _ rfl⟩]

theorem execGet24le_ends (a : Word64) (s : State) : ∃ t, execGet24le a s = .next t ∧ Ends (.get24le a) s t := by
  unfold execGet24le
  split
  exacts [⟨_, rfl, .responded _ _ rfl⟩, ⟨_, rfl, .raised _ _ _ (by simp [canRaise])⟩]

theorem execPut24le_ends (a : Word64) (v : Word32) (s : State) :
    ∃ t, execPut24le a v s = .next t ∧ Ends (.put24le a v) s t := by
  unfold execPut24le
  split
  · exact ⟨_, rfl, .responded _ _ ⟨by simpa using ‹inBounds s a.toNat 3 = true›, rfl⟩⟩
  · exact ⟨_, rfl, .raised _ _ _ (by simp [canRaise])⟩

theorem execVerify_ends (c : Bool) (o : Word64) (r : BitVec 16) (s : State) :
    ∃ t, execVerify c o r s = .next t ∧ Ends (.verify c o r) s t := by
  unfold execVerify
  split
  exacts [⟨_, rfl, .responded _ _ rfl⟩, ⟨_, rfl, .raised _ _ _ (by simp [canRaise])⟩]

theorem execChkarg_ends (c : Bool) (r : BitVec 16) (s : State) :
    ∃ t, execChkarg c r s = .next t ∧ Ends (.chkarg c r) s t := by
  unfold execChkarg
  split
  exacts [⟨_, rfl, .responded _ _ rfl⟩, ⟨_, rfl, .raised _ _ _ (by simp [canRaise])⟩]

theorem execChkstate_ends (c : Bool) (r : BitVec 16) (s : State) :
    ∃ t, execChkstate c r s = .next t ∧ Ends (.chkstate c r) s t := by
  unfold execChkstate
  split
  exacts [⟨_, rfl, .responded _ _ rfl⟩, ⟨_, rfl, .raised _ _ _ (by simp [canRaise])⟩]

theorem execChkpos_ends (a e z : Word64) (s : State) :
    ∃ t, execChkpos a e z s = .next t ∧ Ends (.chkpos a e z) s t := by
  unfold execChkpos
  split
  · exact ⟨_, rfl, .raised _ _ _ (by simp [canRaise])⟩
  · split
    exacts [⟨_, rfl, .raised _ _ _ (by simp [canRaise])⟩, ⟨_, rfl, .responded _ _ rfl⟩]

theorem execInit_ends (a e : Word64) (s : State) : ∃ t, execInit a e s = .next t ∧ Ends (.init a e) s t := by
  unfold execInit
  split
  · exact ⟨_, rfl, .raised _ _ _ (by simp [canRaise])⟩
  split
  · exact ⟨_, rfl, .raised _ _ _ (by simp [canRaise])⟩
  dsimp only
  split
  · exact ⟨_, rfl, .raised _ _ _ (by simp [canRaise])⟩
  · exact ⟨_, rfl, .responded _ _ ⟨by omega, by omega, ‹_›, rfl⟩⟩

theorem execPeek_ends (c : Bool) (w : Word64) (b n : Word32) (s : State) :
    ∃ t, execPeek c w b n s = .next t ∧ Ends (.peek c w b n) s t := by
  unfold execPeek
  split
  · refine ⟨_, rfl, .raised _ _ _ ?_⟩
    cases c <;> simp_all [canRaise, peekOperands]
  split
  · exact ⟨_, rfl, .raised _ _ _ (by cases c <;> simp [canRaise])⟩
  split
  exacts [⟨_, rfl, .raised _ _ _ (by cases c <;> simp [canRaise])⟩, ⟨_, rfl, .responded _ _ rfl⟩]

theorem execPeekf_ends (c : Bool) (w : Word64) (b n : Word32) (s : State) :
    ∃ t, execPeekf c w b n s = .next t ∧ Ends (.peekf c w b n) s t := by
  unfold execPeekf
  split
  · refine ⟨_, rfl, .raised _ _ _ ?_⟩
    cases c <;> simp_all [canRaise, peekOperands]
  split
  · exact ⟨_, rfl, .raised _ _ _ (by cases c <;> simp [canRaise])⟩
  split
  exacts [⟨_, rfl, .raised _ _ _ (by cases c <;> simp [canRaise])⟩, ⟨_, rfl, .responded _ _ rfl⟩]

/-- A reload inside memory is a refill that responds; outside it raises. -/
theorem reload_ends {s : State} {cur : Word64} {bc : Word32} {exh : Bool} (hact : s.act = true)
    (hb : s.bc.toNat ≤ 64)
    (hrange : SessionInv s → cur.toNat + 8 ≤ s.cfg.memSize)
    (hmove : cur.toNat + 8 ≤ s.cfg.memSize →
      LoadMove s cur (BitVec.ofNat 64 (s.mem.readLE cur.toNat 8)) bc exh) :
    Ends .load s (reload cur bc exh s) := by
  by_cases h : cur.toNat + 8 ≤ s.cfg.memSize
  · simp only [reload, memRead_eq, h, if_true]
    exact .responded _ _ ⟨hact, .inr ⟨hb, _, _, _, _, hmove h, rfl⟩⟩
  · rw [reload_of_lt (by omega)]
    exact .inl ⟨_, _, _, rfl, .inr ⟨rfl, hact, rfl, fun hs => h (hrange hs)⟩⟩

theorem execLoad_ends (s : State) : ∃ t, execLoad s = .next t ∧ Ends .load s t := by
  unfold execLoad
  split
  · exact ⟨_, rfl, .raised _ _ _ (by simp [canRaise])⟩
  have hact : s.act = true := by simp_all
  split
  · exact ⟨_, rfl, .responded _ _ ⟨hact, .inl ⟨‹_›, rfl⟩⟩⟩
  have hb : s.bc.toNat ≤ 64 := by omega
  split
  · exact ⟨_, rfl, .responded _ _ ⟨hact, .inr ⟨hb, _, _, _, _, .inl ⟨rfl, rfl, rfl, .inl ⟨rfl, ‹_›⟩⟩, rfl⟩⟩⟩
  rename_i hne
  refine ⟨_, rfl, ?_⟩
  have hs : SessionInv s → s.start.toNat ≤ s.cur.toNat ∧ s.cur.toNat + 8 ≤ s.cfg.memSize := by
    intro h
    obtain ⟨h1, h2, h3, h4⟩ := h hact
    by_cases h8 : 8 ≤ s.endAddr.toNat - s.start.toNat
    · have := h3 h8; omega
    · exact absurd (h4 (by omega)) hne
  unfold loadMoving
  dsimp only
  split
  · rename_i hd
    split
    · have hsub : (s.cur - BitVec.ofNat 64 (s.bc.toNat / 8)).toNat = s.cur.toNat - s.bc.toNat / 8 :=
        sub_ofNat_toNat (by omega)
      refine reload_ends hact hb (fun h => ?_) (fun h => .inr ⟨h, rfl, hne, .inl ⟨rfl, hd, by omega, hsub, ?_⟩⟩)
      · have := hs h; omega
      · simp only [BitVec.toNat_ofNat]; omega
    · refine .responded _ _ ⟨hact, .inr ⟨hb, _, _, _, _, .inl ⟨rfl, rfl, ?_, .inr ⟨rfl, hd, by omega⟩⟩, rfl⟩⟩
      apply BitVec.eq_of_toNat_eq
      simp only [BitVec.toNat_ofNat]; omega
  · rename_i hd
    split
    · rename_i h1
      refine reload_ends hact hb (fun h => ?_)
        (fun h => .inr ⟨h, rfl, hne, .inr (.inl ⟨rfl, by omega, h1, rfl, rebasedCount_toInt _ _⟩)⟩)
      have := hs h; omega
    · rename_i h1
      have hsub : (s.cur - BitVec.ofNat 64 (s.bc.toNat / 8)).toNat = s.cur.toNat - s.bc.toNat / 8 :=
        sub_ofNat_toNat (by omega)
      refine reload_ends hact hb (fun h => ?_)
        (fun h => .inr ⟨h, rfl, hne, .inr (.inr ⟨rfl, by omega, by omega, hsub, rebasedCount_toInt _ _⟩)⟩)
      have := hs h; omega

theorem execIseos_ends (c : Bool) (p q : Word64) (b : Word32) (s : State) :
    ∃ t, execIseos c p q b s = .next t ∧ Ends (.iseos c p q b) s t := by
  unfold execIseos
  split
  · refine ⟨_, rfl, .raised _ _ _ ?_⟩
    cases c <;> simp_all [canRaise, eosOperands]
  · exact ⟨_, rfl, .responded _ _ rfl⟩

theorem execRdreg_ends (n : Word32) (s : State) : ∃ t, execRdreg n s = .next t ∧ Ends (.rdreg n) s t := by
  unfold execRdreg
  split
  · exact ⟨_, rfl, .raised _ _ _ (by simp [canRaise])⟩
  · split
    exacts [⟨_, rfl, .raised _ _ _ (by simp [canRaise])⟩, ⟨_, rfl, .responded _ _ rfl⟩]

/-- The numbers of the two writable registers (R31). -/
theorem regOfNumber_eq_bc {n : Word32} (h : regOfNumber n = some .bc) : n = 4 := by
  rw [regOfNumber_ofNat] at h
  obtain ⟨hlt, h⟩ := List.getElem?_eq_some_iff.1 h
  apply BitVec.eq_of_toNat_eq
  simp only [List.length_cons, List.length_nil] at hlt
  interval_cases n.toNat <;> simp_all

theorem regOfNumber_eq_errFlags {n : Word32} (h : regOfNumber n = some .errFlags) : n = 6 := by
  rw [regOfNumber_ofNat] at h
  obtain ⟨hlt, h⟩ := List.getElem?_eq_some_iff.1 h
  apply BitVec.eq_of_toNat_eq
  simp only [List.length_cons, List.length_nil] at hlt
  interval_cases n.toNat <;> simp_all

theorem execWrreg_ends (n : Word32) (v : Word64) (s : State) :
    ∃ t, execWrreg n v s = .next t ∧ Ends (.wrreg n v) s t := by
  unfold execWrreg
  split
  · exact ⟨_, rfl, .raised _ _ _ (by simp [canRaise])⟩
  · rename_i hr
    split
    · exact ⟨_, rfl, .raised _ _ _ (by simp [canRaise])⟩
    split
    · exact ⟨_, rfl, .raised _ _ _ (by simp [canRaise])⟩
    · exact ⟨_, rfl, .responded _ _ (.inl ⟨regOfNumber_eq_bc hr, by simp_all, by simp_all, rfl⟩)⟩
  · exact ⟨_, rfl, .responded _ _ (.inr ⟨regOfNumber_eq_errFlags ‹_›, rfl⟩)⟩
  all_goals exact ⟨_, rfl, .raised _ _ _ (by simp [canRaise])⟩

theorem execBlkcmp_ends (s : State) : ∃ t, execBlkcmp s = .next t ∧ Ends .blkcmp s t :=
  ⟨_, rfl, .raised _ _ _ (by simp [canRaise])⟩

/-- Every command ends, by raising or by responding after its work. -/
theorem exec_ends (i : Instr) (s : State) : ∃ t, exec i s = .next t ∧ Ends i s t := by
  cases i with
  | hibit v => exact execHibit_ends v s
  | ispow2 v => exact execIspow2_ends v s
  | mask n => exact execMask_ends n s
  | clamp v lo hi => exact execClamp_ends v lo hi s
  | cyclelog h g => exact execCyclelog_ends h g s
  | mintlog n m => exact execMintlog_ends n m s
  | get24le a => exact execGet24le_ends a s
  | put24le a v => exact execPut24le_ends a v s
  | verify c o r => exact execVerify_ends c o r s
  | chkarg c r => exact execChkarg_ends c r s
  | chkstate c r => exact execChkstate_ends c r s
  | chkpos a e z => exact execChkpos_ends a e z s
  | init a e => exact execInit_ends a e s
  | peek c w b n => exact execPeek_ends c w b n s
  | peekf c w b n => exact execPeekf_ends c w b n s
  | load => exact execLoad_ends s
  | iseos c p q b => exact execIseos_ends c p q b s
  | rdreg n => exact execRdreg_ends n s
  | wrreg n v => exact execWrreg_ends n v s
  | blkcmp => exact execBlkcmp_ends s

/-- The inversion lemma of `exec`. -/
theorem exec_cases {i : Instr} {s t : State} (h : exec i s = .next t) : Ends i s t := by
  obtain ⟨t', h', he⟩ := exec_ends i s
  cases h'.symm.trans h
  exact he

/-- What a command beat can do: an illegal word raises, a legal one ends as its command. -/
theorem runCommand_cases {b : Beat} {s t : State} (h : runCommand b s = .next t) :
    (t = illegalCommand s ∧ ∃ x, decode b = .error x) ∨ ∃ i, decode b = .ok i ∧ Ends i s t := by
  unfold runCommand at h
  split at h
  · exact .inr ⟨_, ‹_›, exec_cases h⟩
  · cases h
    exact .inl ⟨rfl, _, ‹_›⟩

/-- What one interaction of the host can do (R221). -/
theorem takeInput_cases {x : HostInput} {s t : State} (h : takeInput x s = .next t) :
    (∃ b, x = .command b ∧ runCommand b s = .next t) ∨
      (∃ a v, x = .memWrite a v ∧ a.toNat + 1 ≤ s.cfg.memSize ∧ t = { s with mem := s.mem.write a.toNat v }) ∨
      (x = .reset ∧ t = resetEngine s) ∨
      (∃ b, x = .resetDuring b ∧ t = resetDuringCommand b s) := by
  cases x with
  | command b => exact .inl ⟨b, rfl, h⟩
  | memWrite a v =>
    simp only [takeInput, hostWrite] at h
    split at h
    · cases h
      exact .inr (.inl ⟨a, v, rfl, by simpa using ‹inBounds _ a.toNat 1 = true›, rfl⟩)
    · cases h
  | reset => cases h; exact .inr (.inr (.inl ⟨rfl, rfl⟩))
  | resetDuring b => cases h; exact .inr (.inr (.inr ⟨b, rfl, rfl⟩))

/-- What a step can do: nothing while the engine is idle, else the first interaction of the host (R195, R221). -/
theorem step_cases {s t : State} (h : step s = .next t) :
    (s.host = [] ∧ t = s) ∨ ∃ x rest, s.host = x :: rest ∧ takeInput x { s with host := rest } = .next t := by
  unfold step at h
  split at h
  · cases h
    exact .inl ⟨‹_›, rfl⟩
  · exact .inr ⟨_, _, ‹_›, h⟩

end Sys2Proof.Machine
end

