-- ==== Sys2Proof/Laws/PerInstr.lean ====
section
/-! SUPPORT. A statement about every command as syntax, one lemma per constructor: the command word of its encoding is
one of the legal words (spec rule R85), sets no reserved bit (R81), and selects exactly one row of the opcode map, so
that no encoding has two meanings (R85). -/

namespace Sys2Proof.Laws.Encoding

/-- The command word of `i`: legal, reserved bits 31:9 zero, and exactly one row of the map selects it (R81, R85). -/
def Statement (i : Instr) : Prop :=
  (encode i).cw ∈ legalWords ∧ (encode i).cw >>> 9 = 0 ∧
  (opcodeMap.filter (fun r => r.selects (encode i).cw)).length = 1

/-- The same of a word alone; every encoding's word depends on the constructor and the `C` bit only. -/
theorem ofWord {i : Instr} {w : CmdWord} (h : (encode i).cw = w)
    (hw : w ∈ legalWords ∧ w >>> 9 = 0 ∧ (opcodeMap.filter (fun r => r.selects w)).length = 1) : Statement i := by
  unfold Statement
  rw [h]
  exact hw

theorem hibit (v : Word32) : Statement (.hibit v) := ofWord (w := 0x10) rfl (by decide)

theorem ispow2 (v : Word32) : Statement (.ispow2 v) := ofWord (w := 0x11) rfl (by decide)

theorem mask (bits : Word32) : Statement (.mask bits) := ofWord (w := 0x12) rfl (by decide)

theorem clamp (v : Word64) (lo hi : Word32) : Statement (.clamp v lo hi) := ofWord (w := 0x13) rfl (by decide)

theorem cyclelog (hashLog strategy : Word32) : Statement (.cyclelog hashLog strategy) :=
  ofWord (w := 0x14) rfl (by decide)

theorem mintlog (inputSize maxSymbolValue : Word32) : Statement (.mintlog inputSize maxSymbolValue) :=
  ofWord (w := 0x15) rfl (by decide)

theorem get24le (addr : Word64) : Statement (.get24le addr) := ofWord (w := 0x20) rfl (by decide)

theorem put24le (addr : Word64) (v : Word32) : Statement (.put24le addr v) := ofWord (w := 0x21) rfl (by decide)

theorem verify (cond : Bool) (offset : Word64) (reason : BitVec 16) : Statement (.verify cond offset reason) :=
  ofWord (w := 0x30) rfl (by decide)

theorem chkarg (cond : Bool) (reason : BitVec 16) : Statement (.chkarg cond reason) :=
  ofWord (w := 0x31) rfl (by decide)

theorem chkstate (cond : Bool) (reason : BitVec 16) : Statement (.chkstate cond reason) :=
  ofWord (w := 0x32) rfl (by decide)

theorem chkpos (start stop size : Word64) : Statement (.chkpos start stop size) := ofWord (w := 0x33) rfl (by decide)

theorem init (start stop : Word64) : Statement (.init start stop) := ofWord (w := 0x40) rfl (by decide)

theorem peek (c : Bool) (window : Word64) (bc n : Word32) : Statement (.peek c window bc n) := by
  cases c
  exacts [ofWord (w := 0x41) rfl (by decide), ofWord (w := 0x141) rfl (by decide)]

theorem peekf (c : Bool) (window : Word64) (bc n : Word32) : Statement (.peekf c window bc n) := by
  cases c
  exacts [ofWord (w := 0x42) rfl (by decide), ofWord (w := 0x142) rfl (by decide)]

theorem load : Statement .load := ofWord (w := 0x43) rfl (by decide)

theorem iseos (c : Bool) (startAddress currentAddress : Word64) (bitsConsumed : Word32) :
    Statement (.iseos c startAddress currentAddress bitsConsumed) := by
  cases c
  exacts [ofWord (w := 0x44) rfl (by decide), ofWord (w := 0x144) rfl (by decide)]

theorem rdreg (regno : Word32) : Statement (.rdreg regno) := ofWord (w := 0x50) rfl (by decide)

theorem wrreg (regno : Word32) (value : Word64) : Statement (.wrreg regno value) :=
  ofWord (w := 0x51) rfl (by decide)

theorem blkcmp : Statement .blkcmp := ofWord (w := 0x60) rfl (by decide)

end Sys2Proof.Laws.Encoding
end

