-- ==== Sys2Proof/Tests/Slice0.lean ====
section
/-! SUPPORT. Tests: ill-formed terms that are refused, command words written out from the spec's encodings, one step per
command against the spec's own vectors (`95_test_vectors.md`, whose names `V-...` the comments cite), and for every
statement that has hypotheses a concrete state and operands that meet them (`witness_<statement>`). -/

namespace Sys2Proof.Tests

open Sys2Proof.Machine

/-! ## Well-formed and ill-formed commands (R84, R91) -/

theorem test_wellFormed_refuses_peek_window : wellFormed (.peek true 1 0 8) = false := by decide
theorem test_wellFormed_refuses_peek_count : wellFormed (.peek true 0 1 8) = false := by decide
theorem test_wellFormed_refuses_peekf_window : wellFormed (.peekf true 1 0 8) = false := by decide
theorem test_wellFormed_refuses_peekf_count : wellFormed (.peekf true 0 1 8) = false := by decide
theorem test_wellFormed_refuses_iseos_start : wellFormed (.iseos true 1 0 0) = false := by decide
theorem test_wellFormed_refuses_iseos_current : wellFormed (.iseos true 0 1 0) = false := by decide
theorem test_wellFormed_refuses_iseos_count : wellFormed (.iseos true 0 0 1) = false := by decide

/-! ## Decoding, each word written bit by bit from R81 and R85: reserved bits 31:9, `C`, `OPC` -/

/-- A command word from its fields: 23 reserved bits, `C`, eight opcode bits (R81). -/
def word (reserved : BitVec 23) (c : BitVec 1) (opc : BitVec 8) : CmdWord := (reserved ++ c ++ opc).setWidth 32

theorem test_decode_hibit : decode ⟨word 0 0 0b00010000, 0xFFFFFFFF00000005, 1, 2⟩ = .ok (.hibit 5) := by decide
theorem test_decode_ispow2 : decode ⟨word 0 0 0b00010001, 0x40, 0, 0⟩ = .ok (.ispow2 0x40) := by decide
theorem test_decode_mask : decode ⟨word 0 0 0b00010010, 31, 0, 0⟩ = .ok (.mask 31) := by decide
theorem test_decode_clamp :
    decode ⟨word 0 0 0b00010011, 0xFFFFFFFFFFFFFFF6, 0xFFFFFFFFFFFFFFEC, 0xFFFFFFFFFFFFFFFB⟩ =
      .ok (.clamp (-10) (-20) (-5)) := by decide
theorem test_decode_cyclelog : decode ⟨word 0 0 0b00010100, 17, 5, 0⟩ = .ok (.cyclelog 17 5) := by decide
theorem test_decode_mintlog : decode ⟨word 0 0 0b00010101, 2, 1, 0⟩ = .ok (.mintlog 2 1) := by decide
theorem test_decode_get24le :
    decode ⟨word 0 0 0b00100000, 0xFFFFFFFFFFFFFFFF, 0, 0⟩ = .ok (.get24le 0xFFFFFFFFFFFFFFFF) := by decide
theorem test_decode_put24le : decode ⟨word 0 0 0b00100001, 0x100, 0xABCDEF, 0⟩ = .ok (.put24le 0x100 0xABCDEF) := by
  decide
theorem test_decode_verify :
    decode ⟨word 0 0 0b00110000, 0x8000000000000000, 3, 0x1FFFF⟩ = .ok (.verify true 3 0xFFFF) := by decide
theorem test_decode_chkarg : decode ⟨word 0 0 0b00110001, 0, 5, 7⟩ = .ok (.chkarg false 7) := by decide
theorem test_decode_chkstate : decode ⟨word 0 0 0b00110010, 1, 5, 9⟩ = .ok (.chkstate true 9) := by decide
theorem test_decode_chkpos : decode ⟨word 0 0 0b00110011, 2, 5, 8⟩ = .ok (.chkpos 2 5 8) := by decide
theorem test_decode_init : decode ⟨word 0 0 0b01000000, 0x1000, 0x1008, 9⟩ = .ok (.init 0x1000 0x1008) := by decide
theorem test_decode_peek : decode ⟨word 0 0 0b01000001, 7, 56, 8⟩ = .ok (.peek false 7 56 8) := by decide
theorem test_decode_peek_cursor : decode ⟨word 0 1 0b01000001, 7, 56, 8⟩ = .ok (.peek true 0 0 8) := by decide
theorem test_decode_peekf : decode ⟨word 0 0 0b01000010, 7, 56, 8⟩ = .ok (.peekf false 7 56 8) := by decide
theorem test_decode_peekf_cursor : decode ⟨word 0 1 0b01000010, 7, 56, 8⟩ = .ok (.peekf true 0 0 8) := by decide
theorem test_decode_load : decode ⟨word 0 0 0b01000011, 1, 2, 3⟩ = .ok .load := by decide
theorem test_decode_iseos : decode ⟨word 0 0 0b01000100, 1, 2, 64⟩ = .ok (.iseos false 1 2 64) := by decide
theorem test_decode_iseos_cursor : decode ⟨word 0 1 0b01000100, 1, 2, 64⟩ = .ok (.iseos true 0 0 0) := by decide
theorem test_decode_rdreg : decode ⟨word 0 0 0b01010000, 9, 0, 0⟩ = .ok (.rdreg 9) := by decide
theorem test_decode_wrreg : decode ⟨word 0 0 0b01010001, 4, 64, 0⟩ = .ok (.wrreg 4 64) := by decide
theorem test_decode_blkcmp : decode ⟨word 0 0 0b01100000, 1, 2, 3⟩ = .ok .blkcmp := by decide

/-- V-X10 to V-X15: words that select no row, each rejected by name (R86). -/
theorem test_decode_rejects :
    decode ⟨word 0 0 0x00, 0, 0, 0⟩ = .error .unlistedOpcode ∧
    decode ⟨word 0 0 0x16, 0, 0, 0⟩ = .error .unlistedOpcode ∧
    decode ⟨word 0 1 0x43, 0, 0, 0⟩ = .error .cursorBitUndefined ∧
    decode ⟨word 0 1 0x40, 0, 0, 0⟩ = .error .cursorBitUndefined ∧
    decode ⟨word 1 0 0x43, 0, 0, 0⟩ = .error .reservedBits ∧
    decode ⟨word 0x400000 0 0x10, 1, 0, 0⟩ = .error .reservedBits := by decide

/-- No two rows of the opcode map overlap: a word that selects both would agree with both patterns under both masks. -/
theorem test_rows_disjoint :
    opcodeMap.Pairwise (fun r q => r.pattern &&& q.mask ≠ q.pattern &&& r.mask) := by decide

/-! ## Helpers: small states and what a step answers -/

/-- The response of the step on one command beat, as numbers: `ST`, `FL`, `RES0`, `RES1`. -/
def answer (cw : CmdWord) (a b c : Word64) (s : State) : Option (Nat × Nat × Nat × Nat) :=
  match step { s with host := [.command ⟨cw, a, b, c⟩] } with
  | .next t => t.response.map (fun r => (r.st.toNat, r.fl.toNat, r.res0.toNat, r.res1.toNat))
  | .fault _ | .refused _ => none

/-- What `f` shows of the state after the step on one command beat. -/
def after {α : Type} (f : State → α) (cw : CmdWord) (a b c : Word64) (s : State) : Option α :=
  match step { s with host := [.command ⟨cw, a, b, c⟩] } with
  | .next t => some (f t)
  | .fault _ | .refused _ => none

/-- Bytes put at an address upward. -/
def putBytes (m : Memory) (a : Nat) : List Byte → Memory
  | [] => m
  | v :: l => putBytes (m.write a v) (a + 1) l

/-- The reset state with bytes at an address. -/
def withBytes (a : Nat) (l : List Byte) : State := { State.reset with mem := putBytes [] a l }

/-- The reset state with one interaction of the host to come. -/
def hosted (x : HostInput) : State := { State.reset with host := [x] }

/-- The engine of V-D1: twelve bytes at `0x3000`, the session of `INIT 0x3000, 0x300C` (`CUR - START = 4`), count `b`. -/
def shortSession (b : Word32) : State :=
  { withBytes 0x3000 [0xA0, 0xA1, 0xA2, 0xA3, 0xA4, 0xA5, 0xA6, 0xA7, 0xA8, 0xA9, 0xAA, 0xFF] with
    start := 0x3000, endAddr := 0x300C, cur := 0x3004, bits := 0xFFAAA9A8A7A6A5A4, bc := b, act := true }

/-- The engine of V-D2: sixteen bytes at `0x2000`, the session of `INIT 0x2000, 0x2010` (`CUR - START = 8`). -/
def longSession (b : Word32) : State :=
  { withBytes 0x2000 [0x10, 0x32, 0x54, 0x76, 0x98, 0xBA, 0xDC, 0xFE, 0x11, 0x22, 0x33, 0x44, 0x55, 0x66, 0x77, 1] with
    start := 0x2000, endAddr := 0x2010, cur := 0x2008, bits := 0x0177665544332211, bc := b, act := true }

/-- The engine of V-D3: nine bytes at `0x5000`, the session of `INIT 0x5000, 0x5009` (`CUR - START = 1`). -/
def oneByteSession (b : Word32) : State :=
  { withBytes 0x5000 [0x11, 0x22, 0x33, 0x44, 0x55, 0x66, 0x77, 0x88, 0x99] with
    start := 0x5000, endAddr := 0x5009, cur := 0x5001, bits := 0x9988776655443322, bc := b, act := true }

/-- The engine of V-I3 after INIT: the tail case, seven bytes, `CUR = START`. -/
def tailSession (b : Word32) : State :=
  { withBytes 0x4000 [0x80, 0x80, 0x80, 0x80, 0x80, 0x80, 0x80] with
    start := 0x4000, endAddr := 0x4007, cur := 0x4000, bits := 0x0080808080808080, bc := b, act := true }

/-- V-D1, last row: the session after its overflow. -/
def overflowed : State := { shortSession 65 with ovf := true, exh := true }

/-! ## One step per command, against the spec's vectors -/

/-- V-N1. -/
theorem test_hibit : answer 0x10 0x88 0 0 State.reset = some (0, 0, 7, 0) := by decide
/-- V-N1: the upper lane bits are ignored, so `v = 0`. -/
theorem test_hibit_zero : answer 0x10 0x100000000 0 0 State.reset = some (2, 0, 0, 0x10) := by decide
/-- V-N2. -/
theorem test_ispow2 :
    answer 0x11 0x80000000 0 0 State.reset = some (0, 0, 1, 0) ∧ answer 0x11 0 0 0 State.reset = some (0, 0, 0, 0) := by
  decide
/-- V-N3. -/
theorem test_mask : answer 0x12 31 0 0 State.reset = some (0, 0, 0x7FFFFFFF, 0) := by decide
/-- V-N3. -/
theorem test_mask_range : answer 0x12 32 0 0 State.reset = some (2, 0, 0, 0x11) := by decide
/-- V-N4: a negative bound is sign-extended. -/
theorem test_clamp :
    answer 0x13 0x8000000000000000 0x80000000 0x7FFFFFFF State.reset = some (0, 0, 0xFFFFFFFF80000000, 0) := by decide
/-- V-N4: the order test is signed. -/
theorem test_clamp_order : answer 0x13 0 1 0xFFFFFFFFFFFFFFFF State.reset = some (2, 0, 0, 0x12) := by decide
/-- V-N5: `hashLog - 1` modulo `2^32`. -/
theorem test_cyclelog : answer 0x14 0 5 0 State.reset = some (0, 0, 0xFFFFFFFF, 0) := by decide
/-- V-N5. -/
theorem test_cyclelog_strategy : answer 0x14 17 8 0 State.reset = some (2, 0, 0, 0x15) := by decide
/-- V-N6: the largest result. -/
theorem test_mintlog : answer 0x15 0xFFFFFFFF 0xFFFFFFFF 0 State.reset = some (0, 0, 32, 0) := by decide
/-- V-N6: both operands wrong, the size is checked first. -/
theorem test_mintlog_size : answer 0x15 1 0 0 State.reset = some (2, 0, 0, 0x13) := by decide
/-- V-L1, V-L2: little-endian, no alignment. -/
theorem test_get24le : answer 0x20 0x101 0 0 (withBytes 0x100 [0x56, 0x34, 0x12, 0x99]) = some (0, 0, 0x991234, 0) := by
  decide
/-- V-L10: the sum is not wrapped. -/
theorem test_get24le_range : answer 0x20 0xFFFFFFFFFFFFFFFF 0 0 State.reset = some (4, 0, 0, 0x32) := by decide
/-- V-L5: bits 31:24 are dropped, the fourth byte stays (V-L3). -/
theorem test_put24le :
    after (fun t => [t.mem.read 0x100, t.mem.read 0x101, t.mem.read 0x102, t.mem.read 0x103]) 0x21 0x100 0x12ABCDEF 0
      (withBytes 0x100 [0x56, 0x34, 0x12, 0x99]) = some [0xEF, 0xCD, 0xAB, 0x99] := by decide
/-- V-L9: nothing written. -/
theorem test_put24le_range :
    answer 0x21 0xFFFFE 1 0 State.reset = some (4, 0, 0, 0x32) ∧
    after (fun t => t.mem) 0x21 0xFFFFE 1 0 State.reset = some [] := by decide
/-- V-C3: the offset passes through, the reason is cut to 16 bits. -/
theorem test_verify :
    answer 0x30 0 0xFFFFFFFFFFFFFFFF 0x1FFFF State.reset = some (1, 0, 0xFFFFFFFFFFFFFFFF, 0xFFFF) := by decide
/-- V-C6: the offset register goes back to 0 and the sticky bits gather. -/
theorem test_chkarg :
    after (fun t => (t.errFlags, t.errKind, t.errOff, t.errRsn)) 0x31 0 0 7
      { State.reset with errFlags := 1, errKind := 1, errOff := 0xFFFFFFFFFFFFFFFF, errRsn := 0xFFFF } =
        some (3, 2, 0, 7) := by decide
/-- V-C8. -/
theorem test_chkstate : answer 0x32 0 0 9 State.reset = some (3, 0, 0, 9) := by decide
/-- V-C16. -/
theorem test_chkpos : answer 0x33 8 8 8 State.reset = some (0, 0, 0, 0) := by decide
/-- V-C17: a negative size blames `start`. -/
theorem test_chkpos_size : answer 0x33 0 0 0xFFFFFFFFFFFFFFFF State.reset = some (4, 0, 0, 0x30) := by decide
/-- V-I1: the normal case. -/
theorem test_init :
    after (fun t => (t.start, t.endAddr, t.cur, t.bits, t.bc)) 0x40 0x4000 0x4009 0
      (withBytes 0x4000 [9, 8, 7, 6, 5, 4, 3, 2, 1]) = some (0x4000, 0x4009, 0x4001, 0x0102030405060708, 63) := by decide
/-- V-I6: the tail case. -/
theorem test_init_tail :
    answer 0x40 0x4000 0x4003 0 (withBytes 0x4000 [0xAA, 0xBB, 0x80]) = some (0, 1, 0x80BBAA, 96) := by decide
/-- V-P6: the widest PEEK. -/
theorem test_peek : answer 0x41 0x8807060504030201 0 63 State.reset = some (0, 0, 0x4403830282018100, 0) := by decide
/-- V-P13: the count is checked first. -/
theorem test_peek_count : answer 0x41 0x8807060504030201 64 64 State.reset = some (2, 0, 0, 0x16) := by decide
/-- V-P18: zero fill at the low end. -/
theorem test_peekf : answer 0x42 0x8807060504030201 8 64 State.reset = some (0, 0, 0x0706050403020100, 0) := by decide
/-- V-P25: the cursor form without a session. -/
theorem test_peekf_cursor : answer 0x142 0 0 8 State.reset = some (3, 0, 0, 0x20) := by decide
/-- V-D1, row `b = 40`: case 3b. -/
theorem test_load : answer 0x43 0 0 0 (shortSession 40) = some (0, 5, 0xA7A6A5A4A3A2A1A0, 0xFFFFFF28) := by decide
/-- V-D2: case 3a. -/
theorem test_load_mainline : answer 0x43 0 0 0 (longSession 63) = some (0, 1, 0x11FEDCBA98765432, 7) := by decide
/-- V-S8, V-D7. -/
theorem test_iseos :
    answer 0x44 0x1000 0x1000 64 State.reset = some (0, 0, 1, 0) ∧
    answer 0x44 0x1000 0x1000 63 State.reset = some (0, 0, 0, 0) := by decide
/-- V-I3 with R156: the cursor form at the end of the stream. -/
theorem test_iseos_cursor : answer 0x144 0 0 0 (tailSession 64) = some (0, 9, 1, 0) := by decide
/-- V-X2: a cursor register without a session. -/
theorem test_rdreg : answer 0x50 4 0 0 State.reset = some (3, 0, 0, 0x20) := by decide
/-- V-S1: `RDREG CUR`. -/
theorem test_rdreg_cur : answer 0x50 2 0 0 (shortSession 56) = some (0, 1, 0x3004, 0) := by decide
/-- V-X8: a read-only register. -/
theorem test_wrreg : answer 0x51 7 0 0 State.reset = some (2, 0, 0, 0x19) := by decide
/-- V-X19, V-X20: write one to clear. -/
theorem test_wrreg_errflags :
    after (fun t => t.errFlags) 0x51 6 0x10 0 { State.reset with errFlags := 0x16 } = some 0x06 := by decide
/-- V-X9. -/
theorem test_blkcmp : answer 0x60 0 0 0 State.reset = some (5, 0, 0, 0x40) := by decide
/-- V-X13: an illegal word. -/
theorem test_illegal : answer 0x140 1 2 3 State.reset = some (5, 0, 0, 0x41) := by decide
/-- A presented word is what the next step runs: HIBIT of a zero lane (R110), the row of `0x10`. -/
theorem test_withFetchWord :
    decodeTableWord 9 0x141 = some (.peek true 0 0 0) ∧
    step (State.reset.withFetchWord 32 0x10) = exec (.hibit 0) State.reset := ⟨by decide, rfl⟩
/-- R210: reset ends the session and keeps memory. -/
theorem test_reset :
    step { overflowed with host := [.reset] } = .next { State.reset with mem := overflowed.mem } := rfl

/-! ## Witnesses: for each statement that has hypotheses, a state and operands that meet them, one for each clause at a
boundary of its range -/

theorem witness_DecodeOfEncodeIsTheCommand :
    wellFormed (.peek true 0 0 8) = true ∧ wellFormed (.iseos false 1 2 64) = true ∧ wellFormed .load = true := by decide

theorem witness_DecodedCommandsAreWellFormed : decode ⟨0x141, 7, 7, 8⟩ = .ok (.peek true 0 0 8) := by decide

theorem witness_IgnoredLaneBitsHaveNoEffect :
    (5 : Word64).setWidth 32 = (0xFFFFFFFF00000005 : Word64).setWidth 32 ∧
    ((1 : Word64) = 0 ↔ (0x8000000000000000 : Word64) = 0) ∧
    (0xFFFF : Word64).setWidth 16 = (0x1FFFF : Word64).setWidth 16 ∧
    (0x50 : CmdWord) ∈ ([0x10, 0x11, 0x12, 0x50] : List CmdWord) ∧ (0x15 : CmdWord) ∈ ([0x14, 0x15] : List CmdWord) ∧
    (0x32 : CmdWord) ∈ ([0x31, 0x32] : List CmdWord) ∧ (0x42 : CmdWord) ∈ ([0x41, 0x42] : List CmdWord) ∧
    (0x142 : CmdWord) ∈ ([0x141, 0x142] : List CmdWord) ∧ (0x60 : CmdWord) ∈ ([0x43, 0x144, 0x60] : List CmdWord) := by
  decide

theorem witness_IllegalWordRaisesUnsupportedOperation :
    (0x140 : CmdWord) ∉ legalWords ∧ (0x61 : CmdWord) ∉ legalWords ∧ (0x80000010 : CmdWord) ∉ legalWords := by decide

theorem witness_StepRunsTheDecodedCommand :
    (hosted (.command ⟨0x10, 5, 0, 0⟩)).host = [.command ⟨0x10, 5, 0, 0⟩] ∧
    decode ⟨0x10, 5, 0, 0⟩ = .ok (.hibit 5) := by decide

theorem witness_HibitReturnsTheHighestSetBit :
    (0 : Word32) = 0 ∧ (1 : Word32) ≠ 0 ∧ (0x80000000 : Word32) ≠ 0 := by decide

theorem witness_Ispow2TestsForOneSetBit :
    (∃! k, (0x80000000 : Word32).getLsbD k = true) ∧ ¬ (∃! k, (0 : Word32).getLsbD k = true) := by
  refine ⟨⟨31, by decide, fun k hk => ?_⟩, fun ⟨k, hk, _⟩ => by simp at hk⟩
  have hlt := BitVec.lt_of_getLsbD hk
  revert hk
  exact (by decide : ∀ j < 32, (0x80000000 : Word32).getLsbD j = true → j = 31) k hlt

theorem witness_MaskReturnsThePatternOfItsWidth : 31 < (32 : Word32).toNat ∧ (31 : Word32).toNat ≤ 31 := by decide

theorem witness_ClampSaturatesIntoItsBounds :
    (0xFFFFFFFF : Word32).toInt < (0 : Word32).toInt ∧ (0xFFFFFFFD : Word32).toInt ≤ (0xFFFFFFFD : Word32).toInt := by
  decide

theorem witness_CyclelogDependsOnTheFamily :
    7 < (8 : Word32).toNat ∧ (4 : Word32).toNat ≤ 4 ∧ 5 ≤ (5 : Word32).toNat ∧ (7 : Word32).toNat ≤ 7 := by decide

theorem witness_MintlogReturnsTheSmallerTableLog :
    (1 : Word32).toNat ≤ 1 ∧ 1 < (2 : Word32).toNat ∧ (0 : Word32) = 0 ∧ (1 : Word32) ≠ 0 := by decide

theorem witness_NumericCommandsIgnoreTheSession : isNumeric (.mintlog 2 1) = true ∧ isNumeric (.ispow2 0) = true := by
  decide

/-- `MEM_SIZE` is `0x100000` here: the last address that fits and the first that does not. -/
theorem witness_Get24leReadsThreeBytes :
    State.reset.cfg.memSize < (0xFFFFE : Word64).toNat + 3 ∧ (0xFFFFD : Word64).toNat + 3 ≤ State.reset.cfg.memSize := by
  decide

theorem witness_Put24leStoresThreeBytes :
    State.reset.cfg.memSize < (0xFFFFFFFFFFFFFFFF : Word64).toNat + 3 ∧
    (0xFFFFD : Word64).toNat + 3 ≤ State.reset.cfg.memSize := by decide

theorem witness_Get24leAfterPut24leReturnsTheValue : (0 : Word64).toNat + 3 ≤ State.reset.cfg.memSize := by decide

theorem witness_VerifyRaisesMalformedInput : (⟨0x30, 0, 0x1234, 0x100⟩ : Beat).cw = 0x30 := rfl

theorem witness_ChkargRaisesInvalidArgument : (⟨0x31, 0, 0, 7⟩ : Beat).cw = 0x31 := rfl

theorem witness_ChkstateRaisesInvalidState : (⟨0x32, 0, 0, 9⟩ : Beat).cw = 0x32 := rfl

theorem witness_BlkcmpAlwaysRaisesUnsupportedOperation : (⟨0x60, 0, 0, 0⟩ : Beat).cw = 0x60 := rfl

theorem witness_ChkposTestsTheTriple :
    (0 ≤ (8 : Word64).toInt ∧ (8 : Word64).toInt ≤ (8 : Word64).toInt) ∧
    (0xFFFFFFFFFFFFFFFF : Word64).toInt < 0 ∧ (8 : Word64).toInt < (9 : Word64).toInt ∧
    (0 ≤ (2 : Word64).toInt ∧ (2 : Word64).toInt ≤ (8 : Word64).toInt ∧ (1 : Word64).toInt < (2 : Word64).toInt) := by
  decide

/-- V-I11, V-I13, V-I9, V-I1 and V-I6: the empty range, one beyond memory, no end mark, eight bytes and fewer. -/
theorem witness_InitOpensASessionOrRaises :
    (0x4000 : Word64).toNat ≤ (0x4000 : Word64).toNat ∧
    ((0x4000 : Word64).toNat < (0x100001 : Word64).toNat ∧ State.reset.cfg.memSize < (0x100001 : Word64).toNat) ∧
    ((0 : Word64).toNat < (1 : Word64).toNat ∧ (1 : Word64).toNat ≤ State.reset.cfg.memSize ∧
      State.reset.mem.read ((1 : Word64).toNat - 1) = 0) ∧
    (withBytes 0x4000 [1, 2, 3, 4, 5, 6, 7, 0x80]).mem.read ((0x4008 : Word64).toNat - 1) ≠ 0 ∧
    8 ≤ (0x4008 : Word64).toNat - (0x4000 : Word64).toNat ∧
    (withBytes 0x4000 [1, 2, 3, 4, 5, 6, 7, 0x80]).mem.read ((0x4007 : Word64).toNat - 1) ≠ 0 ∧
    (0x4007 : Word64).toNat - (0x4000 : Word64).toNat < 8 := by decide

/-- V-I1 and V-I3, V-I5: a successful INIT of nine bytes, and of seven with the counts 64 and 65. -/
theorem witness_InitialCountOfShortRangesIsAtLeastSixtyFour :
    after (fun t => (t.response.map (·.st), t.bc)) 0x40 0x4000 0x4009 0
      (withBytes 0x4000 [9, 8, 7, 6, 5, 4, 3, 2, 1]) = some (some 0, 63) ∧
    after (fun t => (t.response.map (·.st), t.bc)) 0x40 0x4000 0x4007 0
      (withBytes 0x4000 [0x80, 0x80, 0x80, 0x80, 0x80, 0x80, 0x80]) = some (some 0, 64) ∧
    after (fun t => (t.response.map (·.st), t.bc)) 0x40 0x4000 0x4007 0
      (withBytes 0x4000 [1, 2, 3, 4, 5, 6, 0x40]) = some (some 0, 65) := by decide

theorem witness_PeekReturnsTheShiftedWindow :
    State.reset.act = false ∧ (shortSession 63).act = true ∧ (63 : Word32).toNat ≤ 63 ∧ 63 < (64 : Word32).toNat ∧
    ((7 : Word64) = if false then State.reset.bits else 7) ∧
    ((63 : Word32) = if true then (shortSession 63).bc else 0) := by decide

theorem witness_PeekfReturnsTheShiftedWindow :
    State.reset.act = false ∧ (shortSession 63).act = true ∧ (63 : Word32).toNat ≤ 63 ∧ 63 < (64 : Word32).toNat ∧
    ((0 : Word32) = 0 ∨ 64 < (0 : Word32).toNat) ∧ 64 < (65 : Word32).toNat ∧
    1 ≤ (1 : Word32).toNat ∧ (64 : Word32).toNat ≤ 64 := by decide

theorem witness_PeekAndPeekfReadTheSameBits :
    (63 : Word32).toNat ≤ 63 ∧ 1 ≤ (1 : Word32).toNat ∧ (63 : Word32).toNat ≤ 63 := by decide

/-- V-P1 and P1 steps 3 and 4: a peek that succeeds, in each form, and the second again from the state after the first. -/
theorem witness_PeeksConsumeNothing :
    (∃ t, exec (.peek false 0x8807060504030201 56 8) State.reset = .next t ∧ succeeded t) ∧
    (∃ t t' r', exec (.peekf true 0 0 8) (shortSession 56) = .next t ∧ succeeded t ∧ t.bits = (shortSession 56).bits ∧
      t.bc = (shortSession 56).bc ∧ t.act = (shortSession 56).act ∧ exec (.peekf true 0 0 8) t = .next t' ∧
      t'.response = some r') :=
  ⟨⟨_, rfl, _, rfl, rfl⟩, ⟨_, _, _, rfl, ⟨_, rfl, rfl⟩, rfl, rfl, rfl, rfl, rfl⟩⟩

/-- The rows of V-D1 to V-D5 at the boundaries of each case: no session, overflow, `CUR = START`, 3a with and without a
move, 3b, 3c. -/
theorem witness_LoadFollowsItsCaseTable :
    (State.reset.act = false ∧
      (shortSession 65).act = true ∧ SessionInv (shortSession 65) ∧ 64 < (65 : Word32).toNat) ∧
    ((tailSession 64).act = true ∧ SessionInv (tailSession 64) ∧
      (tailSession 64).cur.toNat - (tailSession 64).start.toNat = 0) ∧
    ((longSession 7).act = true ∧ SessionInv (longSession 7) ∧
      (longSession 7).cur.toNat - (longSession 7).start.toNat = 8) ∧
    (SessionInv (longSession 8) ∧ SessionInv (longSession 64)) ∧
    (SessionInv (shortSession 40) ∧ (shortSession 40).cur.toNat - (shortSession 40).start.toNat = 4 ∧
      4 < (40 : Word32).toNat / 8) ∧
    (SessionInv (shortSession 39) ∧ (39 : Word32).toNat / 8 ≤ 4) :=
  ⟨by decide, by decide, by decide, by decide, by decide, by decide⟩

/-- V-D1, `b = 8`, and V-D3, the one count that comes out 0. -/
theorem witness_BoundaryLoadsLeaveAnOverflowingCount :
    ((shortSession 8).act = true ∧ SessionInv (shortSession 8) ∧ 8 ≤ (shortSession 8).bc.toNat ∧
      (shortSession 8).start.toNat < (shortSession 8).cur.toNat ∧
      (shortSession 8).cur.toNat < (shortSession 8).start.toNat + 8 ∧
      answer 0x43 0 0 0 (shortSession 8) = some (0, 1, 0xAAA9A8A7A6A5A4A3, 0xFFFFFFC8)) ∧
    (SessionInv (oneByteSession 64) ∧ (oneByteSession 64).bc.toNat ≤ 64 ∧
      (oneByteSession 64).cur.toNat = (oneByteSession 64).start.toNat + 1 ∧
      answer 0x43 0 0 0 (oneByteSession 64) = some (0, 5, 0x8877665544332211, 0)) := by decide

/-- V-D1, last row (`OVF` is set), the latch after it, and an INIT that takes it away. -/
theorem witness_OverflowLatchKillsTheSession :
    ((shortSession 65).act = true ∧ 64 < (shortSession 65).bc.toNat ∧
      ∃ t, exec .load (shortSession 65) = .next t ∧ (shortSession 65).ovf = false ∧ t.ovf = true) ∧
    (∃ t, takeInput (.command ⟨0x40, 0x3000, 0x300C, 0⟩) overflowed = .next t ∧ t.ovf = false) ∧
    (∃ t, takeInput .reset overflowed = .next t ∧ t.ovf = false) ∧
    OverflowInv overflowed ∧ overflowed.ovf = true :=
  ⟨⟨rfl, by decide, _, rfl, rfl, rfl⟩, ⟨_, rfl, rfl⟩, ⟨_, rfl, rfl⟩, by decide, rfl⟩

/-- Another memory, with the byte at `END` changed, the first outside the range. -/
theorem witness_StreamReadsStayInsideTheRange :
    SessionInv (longSession 63) ∧
    (∀ x, (longSession 63).start.toNat ≤ x → x < (longSession 63).endAddr.toNat →
      ((longSession 63).mem.write 0x2010 5).read x = (longSession 63).mem.read x) ∧
    (∃ t, exec .load (longSession 63) = .next t) ∧ (∃ t, exec (.init 0x2000 0x2010) (longSession 63) = .next t) := by
  refine ⟨by decide, fun x _ hx => ?_, ⟨_, rfl⟩, ⟨_, rfl⟩⟩
  have h : x < 0x2010 := hx
  rw [Memory.read_write, if_neg (by omega)]

theorem witness_IseosTestsTheDrainedState :
    ((0x1000 : Word64) = 0x1000 ∧ (64 : Word32) = 64) ∧ ¬ ((0x1000 : Word64) = 0x1000 ∧ (63 : Word32) = 64) ∧
    State.reset.act = false ∧ (tailSession 64).act = true ∧
    ((tailSession 64).cur = (tailSession 64).start ∧ (tailSession 64).bc = 64) ∧
    ¬ ((tailSession 65).cur = (tailSession 65).start ∧ (tailSession 65).bc = 64) := by decide

theorem witness_RdregReadsTheNamedRegister :
    9 < (10 : Word32).toNat ∧ ((4 : Word32).toNat ≤ 4 ∧ State.reset.act = false) ∧
    ((5 : Word32).toNat ≤ 9 ∧ ((5 : Word32).toNat ≤ 4 → State.reset.act = true)) ∧
    ((0 : Word32).toNat ≤ 9 ∧ (shortSession 0).act = true) := by decide

theorem witness_WrregWritesCountAndClearsErrors :
    9 < (10 : Word32).toNat ∧ ((9 : Word32).toNat ≤ 9 ∧ (9 : Word32) ≠ 4 ∧ (9 : Word32) ≠ 6) ∧
    State.reset.act = false ∧ (overflowed.act = true ∧ overflowed.ovf = true) ∧
    ((shortSession 0).act = true ∧ (shortSession 0).ovf = false) := by decide

/-- VERIFY with a false condition, and an illegal word. -/
theorem witness_FailingCommandsChangeOnlyTheCapture :
    (∃ t r, runCommand ⟨0x30, 0, 0x1234, 0x100⟩ State.reset = .next t ∧ t.response = some r ∧ r.st ≠ 0) ∧
    (∃ t r, runCommand ⟨0, 0, 0, 0⟩ State.reset = .next t ∧ t.response = some r ∧ r.st ≠ 0) :=
  ⟨⟨_, _, rfl, rfl, by decide⟩, ⟨_, _, rfl, rfl, by decide⟩⟩

theorem witness_SucceedingCommandsKeepTheCapture :
    (∃ t, runCommand ⟨0x43, 0, 0, 0⟩ (longSession 63) = .next t ∧ succeeded t) ∧
    (∃ t, runCommand ⟨0x51, 6, 0x10, 0⟩ { State.reset with errFlags := 0x16 } = .next t ∧ succeeded t) :=
  ⟨⟨_, rfl, _, rfl, rfl⟩, ⟨_, rfl, _, rfl, rfl⟩⟩

/-- V-X19: bit 4 goes from 1 to 0. -/
theorem witness_StickyBitsAreClearedByWrregOrReset :
    ∃ t, takeInput (.command ⟨0x51, 6, 0x10, 0⟩) { State.reset with errFlags := 0x16 } = .next t ∧
      (0x16 : BitVec 5).getLsbD 4 = true ∧ t.errFlags.getLsbD 4 = false :=
  ⟨_, rfl, by decide, by decide⟩

theorem witness_CommandsRaiseOnlyTheirKinds :
    ∃ t r, SessionInv State.reset ∧ exec (.rdreg 4) State.reset = .next t ∧ t.response = some r ∧ r.st = 3 :=
  ⟨_, _, by decide, rfl, rfl, rfl⟩

theorem witness_FrameOfReadingCommands :
    readsOnly (.peek true 0 0 8) = true ∧ readsOnly (.rdreg 2) = true ∧
    (∃ t, exec (.peek true 0 0 8) (shortSession 56) = .next t ∧ succeeded t) ∧
    (∃ t, exec (.peek true 0 0 8) State.reset = .next t) :=
  ⟨rfl, rfl, ⟨_, rfl, _, rfl, rfl⟩, ⟨_, rfl⟩⟩

theorem witness_FrameOfPut24le :
    (∃ t, exec (.put24le 0xFFFFD 1) State.reset = .next t ∧ succeeded t) ∧
    (∃ t, exec (.put24le 0xFFFFE 1) State.reset = .next t) :=
  ⟨⟨_, rfl, _, rfl, rfl⟩, ⟨_, rfl⟩⟩

/-- A success and a failure of each of the three. -/
theorem witness_FrameOfCursorCommands :
    (∃ t, exec (.init 0x3000 0x300C) (shortSession 5) = .next t ∧ succeeded t) ∧
    (∃ t, exec (.init 0 0) (shortSession 5) = .next t ∧ t.response.map (·.st) = some 1) ∧
    (∃ t, exec .load overflowed = .next t ∧ succeeded t) ∧
    (∃ t, exec .load State.reset = .next t ∧ t.response.map (·.st) = some 3) ∧
    (∃ t, exec (.wrreg 4 64) (shortSession 5) = .next t ∧ succeeded t) ∧
    (∃ t, exec (.wrreg 6 0x1F) (shortSession 5) = .next t ∧ succeeded t) ∧
    (∃ t, exec (.wrreg 0 0) (shortSession 5) = .next t ∧ t.response.map (·.st) = some 2) :=
  ⟨⟨_, rfl, _, rfl, rfl⟩, ⟨_, rfl, rfl⟩, ⟨_, rfl, _, rfl, rfl⟩, ⟨_, rfl, rfl⟩, ⟨_, rfl, _, rfl, rfl⟩,
    ⟨_, rfl, _, rfl, rfl⟩, ⟨_, rfl, rfl⟩⟩

/-- INIT changes `START`, LOAD changes `CUR`, WRREG changes `BC`. -/
theorem witness_CursorIsWrittenOnlyByItsCommands :
    (∃ t, exec (.init 0x3001 0x300C) (shortSession 5) = .next t ∧ t.start ≠ (shortSession 5).start) ∧
    (∃ t, exec .load (longSession 63) = .next t ∧ t.cur ≠ (longSession 63).cur) ∧
    (∃ t, exec (.wrreg 4 64) (shortSession 5) = .next t ∧ t.bc ≠ (shortSession 5).bc) :=
  ⟨⟨_, rfl, by decide⟩, ⟨_, rfl, by decide⟩, ⟨_, rfl, by decide⟩⟩

theorem witness_OnlyPut24leWritesMemory :
    ∃ t, exec (.put24le 0xFFFFD 0xAB0000) State.reset = .next t ∧ t.mem.read 0xFFFFF ≠ State.reset.mem.read 0xFFFFF :=
  ⟨_, rfl, by decide⟩

theorem witness_StepKeepsTheParameter : ∃ t, step (hosted .reset) = .next t := ⟨_, rfl⟩

/-- A state in a session, and one that is none of the reachable ones' defaults: after an overflow and an error. -/
theorem witness_StepKeepsTheInvariant :
    EngineInv { overflowed with errFlags := 1, errKind := 1, errOff := 5, errRsn := 0x100, host := [.reset] } ∧
    EngineInv { longSession 63 with host := [.command ⟨0x43, 0, 0, 0⟩] } ∧
    (∃ t, step { longSession 63 with host := [.command ⟨0x43, 0, 0, 0⟩] } = .next t) :=
  ⟨by decide, by decide, ⟨_, rfl⟩⟩

theorem witness_StepKeepsMemoryCanonical :
    MemoryInv { longSession 63 with host := [.command ⟨0x21, 0x2001, 0, 0⟩] } ∧
    (∃ t, step { longSession 63 with host := [.command ⟨0x21, 0x2001, 0, 0⟩] } = .next t) :=
  ⟨by decide, ⟨_, rfl⟩⟩

theorem witness_CurNeverIncreasesWithinASession :
    (shortSession 40).act = true ∧ SessionInv (shortSession 40) ∧ (∀ a e, Instr.load ≠ .init a e) ∧
    (∃ t, exec .load (shortSession 40) = .next t) :=
  ⟨rfl, by decide, (by intro _ _ h; cases h), ⟨_, rfl⟩⟩

/-- A session of eight bytes and more, one of seven, and a store that ends where the range starts. -/
theorem witness_WindowStaysACopyOfMemory :
    SessionInv (longSession 63) ∧ WindowMatchesMemory (longSession 63) ∧
    SessionInv (tailSession 64) ∧ WindowMatchesMemory (tailSession 64) ∧
    ((0x1FFD : Word64).toNat + 3 ≤ (longSession 63).start.toNat ∨
      (longSession 63).endAddr.toNat ≤ (0x1FFD : Word64).toNat) ∧
    (∃ t, exec (.put24le 0x1FFD 5) (longSession 63) = .next t) ∧ (∃ t, exec .load (longSession 63) = .next t) := by
  refine ⟨by decide, ?_, by decide, ?_, by decide, ⟨_, rfl⟩, ⟨_, rfl⟩⟩ <;> unfold WindowMatchesMemory holdsBytes <;> decide

theorem witness_MainlineLoadKeepsTheStream :
    (longSession 64).act = true ∧ SessionInv (longSession 64) ∧ WindowMatchesMemory (longSession 64) ∧
    (longSession 64).bc.toNat ≤ 64 ∧ (longSession 64).start.toNat + 8 ≤ (longSession 64).cur.toNat ∧
    (∃ t, exec .load (longSession 64) = .next t) ∧ 1 ≤ (57 : Word32).toNat ∧ (57 : Word32).toNat ≤ 57 := by
  refine ⟨rfl, by decide, ?_, by decide, by decide, ⟨_, rfl⟩, by decide, by decide⟩
  unfold WindowMatchesMemory holdsBytes
  decide

theorem witness_ResetInputGivesTheResetState :
    (4 : Word32).toNat ≤ 4 ∧
    (∃ t u, takeInput .reset (withBytes 0x4000 [0xAA, 0xBB, 0x80]) = .next t ∧
      exec (.init 0x4000 0x4003) t = .next u ∧ u.act = true) :=
  ⟨by decide, ⟨_, _, rfl, rfl, rfl⟩⟩

theorem witness_ResetStateHoldsTheSpecValues :
    (4 : Word32).toNat ≤ 4 ∧ (∃ t, takeInput .reset overflowed = .next t) := ⟨by decide, _, rfl⟩

/-- The last PUT24LE that fits, the first that does not, and a command that writes nothing. -/
theorem witness_ResetDuringACommandAbandonsIt :
    decode ⟨0x21, 0xFFFFD, 5, 0⟩ = .ok (.put24le 0xFFFFD 5) ∧
    (0xFFFFD : Word64).toNat + 3 ≤ State.reset.cfg.memSize ∧
    decode ⟨0x21, 0xFFFFE, 5, 0⟩ = .ok (.put24le 0xFFFFE 5) ∧
    State.reset.cfg.memSize < (0xFFFFE : Word64).toNat + 3 ∧
    decode ⟨0x43, 0, 0, 0⟩ = .ok .load := by decide

theorem witness_HostWritesOneByte :
    (0xFFFFF : Word64).toNat < State.reset.cfg.memSize ∧ State.reset.cfg.memSize ≤ (0x100000 : Word64).toNat := by decide

theorem witness_IdleEngineHoldsItsState : State.reset.host = [] := rfl

/-- Two sessionless states that differ in every cursor register; an INIT that succeeds from them. -/
theorem witness_CursorIsUnobservableBeforeInit :
    State.reset.act = false ∧
    agreeButCursor State.reset { State.reset with start := 1, endAddr := 2, cur := 3, bits := 4, bc := 5 } ∧
    (∃ t, runCommand ⟨0x40, 0x4000, 0x4003, 0⟩ (withBytes 0x4000 [0xAA, 0xBB, 0x80]) = .next t ∧ t.act = true) :=
  ⟨rfl, ⟨⟨rfl, rfl, rfl⟩, ⟨rfl, rfl, rfl, rfl⟩, rfl, rfl, rfl, rfl, rfl⟩, ⟨_, rfl, rfl⟩⟩

end Sys2Proof.Tests
end

/-! Proofs about the encoding: which words select a row of the opcode map (spec rules R81, R85), and what a word that
selects none does (R86). -/

namespace Sys2Proof

/-! ## The words a row selects -/

/-- A word is its bits outside the `C` bit, with the `C` bit put back (R81). -/
theorem withCursorBit_cursorBit (w : CmdWord) : withCursorBit (w &&& 0xFFFFFEFF) (cursorBit w) = w := by
  have hbit : w &&& 0x100 = if cursorBit w then 0x100 else 0 := BitVec.and_twoPow w 8
  have hsplit : (w &&& 0xFFFFFEFF) ||| (w &&& 0x100) = w := by
    rw [← BitVec.and_or_distrib_left]
    exact BitVec.and_allOnes
  rw [hbit] at hsplit
  cases hc : cursorBit w with
  | true => simpa [withCursorBit, hc] using hsplit
  | false => simpa [withCursorBit, hc] using hsplit

/-- A row of the opcode map fixes every bit of its word, or all but the `C` bit; the words left are legal (R85). -/
theorem opcodeMap_words_legal : ∀ r ∈ opcodeMap,
    (r.mask = 0xFFFFFFFF ∧ r.pattern ∈ legalWords) ∨
      (r.mask = 0xFFFFFEFF ∧ ∀ c, withCursorBit r.pattern c ∈ legalWords) := by decide

theorem mem_legalWords_of_selects {r : Row} {w : CmdWord} (hr : r ∈ opcodeMap) (h : r.selects w = true) :
    w ∈ legalWords := by
  have hw : w &&& r.mask = r.pattern := by simpa [Row.selects] using h
  obtain ⟨hmask, hlegal⟩ | ⟨hmask, hlegal⟩ := opcodeMap_words_legal r hr
  · have hall : w &&& 0xFFFFFFFF = w := BitVec.and_allOnes
    rwa [← hw, hmask, hall] at hlegal
  · have hc := hlegal (cursorBit w)
    rwa [← hw, hmask, withCursorBit_cursorBit] at hc

/-! ## Illegal words -/

theorem decode_of_not_legal {b : Beat} (h : b.cw ∉ legalWords) : decode b = .error (rejectName b.cw) := by
  have hnone : opcodeMap.find? (fun r => r.selects b.cw) = none :=
    List.find?_eq_none.2 fun _ hr hsel => h (mem_legalWords_of_selects hr hsel)
  simp [decode, hnone]

namespace Machine

theorem runCommand_of_decode_error {b : Beat} {x : Reject} (h : decode b = .error x) (s : State) :
    runCommand b s = .next (illegalCommand s) := by
  simp [runCommand, h]

/-- The error of an illegal word in the spec's numbers (R86, R180, R181). -/
theorem illegalCommand_eq (s : State) :
    illegalCommand s =
      { s with
        errFlags := s.errFlags ||| 0b10000, errKind := 5, errOff := 0, errRsn := 0x0041
        response := some { st := 5, fl := flags s, res0 := 0, res1 := 0x0041 } } := rfl

/-- Settles O5: an illegal word selects no row of the opcode map, so decoding fails and the error of R86 is taken. -/
theorem illegalWordRaisesUnsupportedOperation : Obligations.IllegalWordRaisesUnsupportedOperation := by
  intro s b hb
  rw [runCommand_of_decode_error (decode_of_not_legal hb), illegalCommand_eq]

end Machine

end Sys2Proof

/-! Proofs about the numeric commands (spec rules R110 to R116): the beats that decode to each, one equation per case of
each meaning, and that none of them looks at the state. -/

namespace Sys2Proof

/-! ## The beats of the numeric commands (R84, R85) -/

/-- A beat decodes by the first row of the opcode map that its word selects (R85, R87). -/
theorem decode_of_findIdx {b : Beat} {r : Row} {k : Nat} (hk : opcodeMap.findIdx (fun r => r.selects b.cw) = k)
    (hr : opcodeMap[k]? = some r) : decode b = .ok (r.build (cursorBit b.cw) b) := by
  have hfind : opcodeMap.find? (fun r => r.selects b.cw) = some r := by
    rw [List.find?_eq_getElem?_findIdx, hk, hr]
  simp only [decode, hfind]

theorem decode_hibit {b : Beat} (h : b.cw = 0x10) : decode b = .ok (.hibit (b.op0.setWidth 32)) :=
  decode_of_findIdx (k := 0) (by rw [h]; decide) rfl

theorem decode_ispow2 {b : Beat} (h : b.cw = 0x11) : decode b = .ok (.ispow2 (b.op0.setWidth 32)) :=
  decode_of_findIdx (k := 1) (by rw [h]; decide) rfl

theorem decode_mask {b : Beat} (h : b.cw = 0x12) : decode b = .ok (.mask (b.op0.setWidth 32)) :=
  decode_of_findIdx (k := 2) (by rw [h]; decide) rfl

theorem decode_clamp {b : Beat} (h : b.cw = 0x13) :
    decode b = .ok (.clamp b.op0 (b.op1.setWidth 32) (b.op2.setWidth 32)) :=
  decode_of_findIdx (k := 3) (by rw [h]; decide) rfl

theorem decode_cyclelog {b : Beat} (h : b.cw = 0x14) :
    decode b = .ok (.cyclelog (b.op0.setWidth 32) (b.op1.setWidth 32)) :=
  decode_of_findIdx (k := 4) (by rw [h]; decide) rfl

theorem decode_mintlog {b : Beat} (h : b.cw = 0x15) :
    decode b = .ok (.mintlog (b.op0.setWidth 32) (b.op1.setWidth 32)) :=
  decode_of_findIdx (k := 5) (by rw [h]; decide) rfl

/-! ## Powers of two as bit patterns (R111) -/

theorem existsUnique_testBit_iff (n : Nat) : (∃! k, n.testBit k = true) ↔ n.isPowerOfTwo := by
  constructor
  · rintro ⟨k, hk, huniq⟩
    refine ⟨k, Nat.eq_of_testBit_eq fun j => ?_⟩
    rw [Nat.testBit_two_pow, Bool.eq_iff_iff, decide_eq_true_iff]
    exact ⟨fun hj => (huniq j hj).symm, fun hkj => hkj ▸ hk⟩
  · rintro ⟨k, rfl⟩
    exact ⟨k, Nat.testBit_two_pow_self, fun j hj => (by simpa [Nat.testBit_two_pow] using hj : k = j).symm⟩

/-- The document's test for a power of two (R111). -/
theorem and_sub_one_test_iff_isPowerOfTwo (v : Word32) :
    (v != 0 && (v &&& (v - 1)) == 0) = true ↔ v.toNat.isPowerOfTwo := by
  have hzero : v ≠ 0 ↔ v.toNat ≠ 0 := not_congr BitVec.toNat_inj.symm
  rw [← Nat.ne_zero_and_sub_one_eq_zero_iff_isPowerOfTwo, Bool.and_eq_true, bne_iff_ne, beq_iff_eq, hzero]
  refine and_congr_right fun hv => ?_
  have hone : (1 : Word32) ≤ v := Nat.one_le_iff_ne_zero.2 hv
  rw [← BitVec.toNat_inj, BitVec.toNat_and, BitVec.toNat_sub_of_le hone]
  rfl

namespace Machine

/-! ## One equation per case of each meaning (R110 to R115) -/

theorem exec_hibit_of_eq_zero {v : Word32} (h : v.toNat = 0) (s : State) :
    exec (.hibit v) s = .next (raise .invalidArgument 0 0x0010 s) :=
  if_pos h

theorem exec_hibit_of_ne_zero {v : Word32} (h : v.toNat ≠ 0) (s : State) :
    exec (.hibit v) s = .next (respond (BitVec.ofNat 64 (hb v.toNat)) 0 s) :=
  if_neg h

theorem exec_ispow2 (v : Word32) (s : State) :
    exec (.ispow2 v) s = .next (respond (boolResult (v != 0 && (v &&& (v - 1)) == 0)) 0 s) := rfl

theorem exec_mask_of_lt {n : Word32} (h : 31 < n.toNat) (s : State) :
    exec (.mask n) s = .next (raise .invalidArgument 0 0x0011 s) :=
  if_pos h

theorem exec_mask_of_le {n : Word32} (h : n.toNat ≤ 31) (s : State) :
    exec (.mask n) s = .next (respond (BitVec.ofNat 64 (2 ^ n.toNat - 1)) 0 s) :=
  if_neg h.not_gt

theorem exec_clamp_of_lt {lo hi : Word32} (h : hi.toInt < lo.toInt) (v : Word64) (s : State) :
    exec (.clamp v lo hi) s = .next (raise .invalidArgument 0 0x0012 s) :=
  if_pos h

/-- The nested comparisons of R113 are the nearest value in the interval. -/
theorem exec_clamp_of_le {lo hi : Word32} (h : lo.toInt ≤ hi.toInt) (v : Word64) (s : State) :
    exec (.clamp v lo hi) s = .next (respond (sext64 (max lo.toInt (min v.toInt hi.toInt))) 0 s) := by
  have hr : (if v.toInt < lo.toInt then lo.toInt else if hi.toInt < v.toInt then hi.toInt else v.toInt) =
      max lo.toInt (min v.toInt hi.toInt) := by
    split
    · omega
    · split <;> omega
  rw [← hr]
  exact if_neg h.not_gt

theorem exec_cyclelog_of_lt {g : Word32} (h : 7 < g.toNat) (l : Word32) (s : State) :
    exec (.cyclelog l g) s = .next (raise .invalidArgument 0 0x0015 s) :=
  if_pos h

theorem exec_cyclelog_of_le {g : Word32} (h : g.toNat ≤ 7) (l : Word32) (s : State) :
    exec (.cyclelog l g) s = .next (respond (zext64 (if 5 ≤ g.toNat then l - 1 else l)) 0 s) :=
  if_neg h.not_gt

theorem exec_mintlog_of_size {n : Word32} (h : n.toNat ≤ 1) (m : Word32) (s : State) :
    exec (.mintlog n m) s = .next (raise .invalidArgument 0 0x0013 s) :=
  if_pos h

theorem exec_mintlog_of_symbol {n m : Word32} (hn : 1 < n.toNat) (hm : m.toNat = 0) (s : State) :
    exec (.mintlog n m) s = .next (raise .invalidArgument 0 0x0014 s) :=
  (if_neg hn.not_ge).trans (if_pos hm)

theorem exec_mintlog_of_ne_zero {n m : Word32} (hn : 1 < n.toNat) (hm : m.toNat ≠ 0) (s : State) :
    exec (.mintlog n m) s =
      .next (respond (BitVec.ofNat 64 (min (hb (n.toNat - 1) + 1) (hb m.toNat + 2))) 0 s) :=
  (if_neg hn.not_ge).trans (if_neg hm)

/-! ## The results as numbers -/

/-- A clamped value lies between two `i32`, so its 64-bit pattern stands for it (R113). -/
theorem toInt_sext64_of_mem_bounds {lo hi : Word32} {r : Int} (hlo : lo.toInt ≤ r) (hhi : r ≤ hi.toInt) :
    (sext64 r).toInt = r := by
  have hlow := lo.le_toInt
  have hhigh := hi.toInt_lt
  exact BitVec.toInt_ofInt_eq_self (by decide) (by omega) (by omega)

theorem zext64_sub_one_toNat (l : Word32) : (zext64 (l - 1)).toNat = (l.toNat + (2 ^ 32 - 1)) % 2 ^ 32 := by
  rw [zext64_toNat (by decide), BitVec.toNat_sub, Nat.add_comm]
  rfl

theorem ofNat_two_pow_sub_one_toNat {n : Nat} (h : n ≤ 64) : (BitVec.ofNat 64 (2 ^ n - 1)).toNat = 2 ^ n - 1 := by
  have hpow : 2 ^ n ≤ 2 ^ 64 := Nat.pow_le_pow_right (by decide) h
  exact Nat.mod_eq_of_lt (by omega)

theorem ofNat_two_pow_sub_one_getLsbD {n : Nat} (h : n ≤ 64) (j : Nat) :
    (BitVec.ofNat 64 (2 ^ n - 1)).getLsbD j = decide (j < n) := by
  rw [BitVec.getLsbD, ofNat_two_pow_sub_one_toNat h, Nat.testBit_two_pow_sub_one]

/-! ## The numeric commands one by one -/

/-- Settles O8: the model's `hb` is the index of the highest set bit, and 0 is refused before it is asked. -/
theorem hibitReturnsTheHighestSetBit : Obligations.HibitReturnsTheHighestSetBit := by
  refine ⟨fun b => decode_hibit,
    fun v s => ⟨fun hv => exec_hibit_of_eq_zero (congrArg BitVec.toNat hv) s, fun hv => ?_⟩⟩
  have hne : v.toNat ≠ 0 := fun h0 => hv (BitVec.eq_of_toNat_eq h0)
  obtain ⟨hlow, hhigh⟩ := hb_spec hne
  exact ⟨hb v.toNat, Nat.lt_succ_iff.1 (hb_lt hne v.isLt), hlow, hhigh, exec_hibit_of_ne_zero hne s⟩

/-- Settles O9: the test on `v &&& (v - 1)` holds of the powers of two, which are the words with one bit set. -/
theorem ispow2TestsForOneSetBit : Obligations.Ispow2TestsForOneSetBit := by
  refine ⟨fun b => decode_ispow2, fun v s => ?_⟩
  have htest : (v != 0 && (v &&& (v - 1)) == 0) = true ↔ ∃! k, v.getLsbD k = true :=
    (and_sub_one_test_iff_isPowerOfTwo v).trans (existsUnique_testBit_iff v.toNat).symm
  rw [exec_ispow2]
  constructor
  · intro hone
    rw [htest.2 hone]
    rfl
  · intro hnot
    rw [Bool.eq_false_iff.2 (mt htest.1 hnot)]
    rfl

/-- Settles O10: `2 ^ bits - 1` has exactly the bits below `bits`, and fits the result up to 31. -/
theorem maskReturnsThePatternOfItsWidth : Obligations.MaskReturnsThePatternOfItsWidth := by
  refine ⟨fun b => decode_mask, fun n s => ⟨fun hn => exec_mask_of_lt hn s, fun hn => ?_⟩⟩
  have h64 : n.toNat ≤ 64 := by omega
  exact ⟨_, ofNat_two_pow_sub_one_toNat h64, ofNat_two_pow_sub_one_getLsbD h64, exec_mask_of_le hn s⟩

/-- Settles O11: the nearest value lies between the two `i32` bounds, so sign extension keeps it. -/
theorem clampSaturatesIntoItsBounds : Obligations.ClampSaturatesIntoItsBounds := by
  refine ⟨fun b => decode_clamp, fun v lo hi s => ⟨fun h => exec_clamp_of_lt h v s, fun h => ?_⟩⟩
  have hhi : max lo.toInt (min v.toInt hi.toInt) ≤ hi.toInt := max_le h (min_le_right _ _)
  exact ⟨_, toInt_sext64_of_mem_bounds (le_max_left _ _) hhi, exec_clamp_of_le h v s⟩

/-- Settles O12: codes 5 to 7 take one from `hashLog` in 32 bits, codes 0 to 4 leave it, the others raise. -/
theorem cyclelogDependsOnTheFamily : Obligations.CyclelogDependsOnTheFamily := by
  refine ⟨fun b => decode_cyclelog,
    fun l g s => ⟨fun hg => exec_cyclelog_of_lt hg l s, fun hg => ?_, fun h5 h7 => ?_⟩⟩
  · rw [exec_cyclelog_of_le (by omega), if_neg (by omega)]
    rfl
  · refine ⟨zext64 (l - 1), zext64_sub_one_toNat l, ?_⟩
    rw [exec_cyclelog_of_le h7, if_pos h5]

/-- Settles O13: both logs are `hb` of a number in `1 .. 2 ^ 32 - 1`, so the smaller sum is in `1 .. 32`. -/
theorem mintlogReturnsTheSmallerTableLog : Obligations.MintlogReturnsTheSmallerTableLog := by
  refine ⟨fun b => decode_mintlog, fun n m s => ⟨fun hn => exec_mintlog_of_size hn m s,
    fun hn hm => exec_mintlog_of_symbol hn (congrArg BitVec.toNat hm) s, fun hn hm => ?_⟩⟩
  have hm0 : m.toNat ≠ 0 := fun h0 => hm (BitVec.eq_of_toNat_eq h0)
  have hn0 : n.toNat - 1 ≠ 0 := by omega
  obtain ⟨hnlow, hnhigh⟩ := hb_spec hn0
  obtain ⟨hmlow, hmhigh⟩ := hb_spec hm0
  have hlog : hb (n.toNat - 1) < 32 := hb_lt hn0 (lt_of_le_of_lt (Nat.sub_le _ _) n.isLt)
  exact ⟨_, _, hnlow, hnhigh, hmlow, hmhigh, by omega, by omega, exec_mintlog_of_ne_zero hn hm0 s⟩

/-! ## Independence of the session (R116) -/

/-- The command ends the same way, with the same answer, from every state. -/
def EndsUniformly (i : Instr) : Prop :=
  (∃ r0 r1, ∀ s, exec i s = .next (respond r0 r1 s)) ∨ ∃ k o r, ∀ s, exec i s = .next (raise k o r s)

/-- Whether a numeric command raises is a question about its operands alone. -/
theorem endsUniformly_of_isNumeric {i : Instr} (h : isNumeric i = true) : EndsUniformly i := by
  cases i with
  | hibit v =>
    by_cases hv : v.toNat = 0
    · exact .inr ⟨_, _, _, exec_hibit_of_eq_zero hv⟩
    · exact .inl ⟨_, _, exec_hibit_of_ne_zero hv⟩
  | ispow2 v => exact .inl ⟨_, _, exec_ispow2 v⟩
  | mask n =>
    obtain hn | hn := Nat.lt_or_ge 31 n.toNat
    · exact .inr ⟨_, _, _, exec_mask_of_lt hn⟩
    · exact .inl ⟨_, _, exec_mask_of_le hn⟩
  | clamp v lo hi =>
    obtain hlt | hle := lt_or_ge hi.toInt lo.toInt
    · exact .inr ⟨_, _, _, exec_clamp_of_lt hlt v⟩
    · exact .inl ⟨_, _, exec_clamp_of_le hle v⟩
  | cyclelog l g =>
    obtain hg | hg := Nat.lt_or_ge 7 g.toNat
    · exact .inr ⟨_, _, _, exec_cyclelog_of_lt hg l⟩
    · exact .inl ⟨_, _, exec_cyclelog_of_le hg l⟩
  | mintlog n m =>
    obtain hn | hn := Nat.lt_or_ge 1 n.toNat
    · by_cases hm : m.toNat = 0
      · exact .inr ⟨_, _, _, exec_mintlog_of_symbol hn hm⟩
      · exact .inl ⟨_, _, exec_mintlog_of_ne_zero hn hm⟩
    · exact .inr ⟨_, _, _, exec_mintlog_of_size hn m⟩
  | get24le | put24le | verify | chkarg | chkstate | chkpos | init | peek | peekf | load | iseos | rdreg | wrreg
  | blkcmp => exact nomatch h

/-- Settles O14: a command that ends uniformly answers alike everywhere, and `respond` and `raise` leave the cursor, the
flags and memory as they were. -/
theorem numericCommandsIgnoreTheSession : Obligations.NumericCommandsIgnoreTheSession := by
  intro i s s' hi
  obtain ⟨r0, r1, h⟩ | ⟨k, o, r, h⟩ := endsUniformly_of_isNumeric hi
  · exact ⟨_, _, _, _, h s, h s', respond_response r0 r1 s, respond_response r0 r1 s', rfl, rfl, rfl,
      ⟨rfl, rfl, rfl, rfl, rfl⟩, ⟨rfl, rfl, rfl⟩, fun _ => rfl⟩
  · exact ⟨_, _, _, _, h s, h s', raise_response k o r s, raise_response k o r s', rfl, rfl, rfl,
      ⟨rfl, rfl, rfl, rfl, rfl⟩, ⟨rfl, rfl, rfl⟩, fun _ => rfl⟩

end Machine

end Sys2Proof

/-! Proofs about the little-endian 24-bit commands (spec rules R120 to R122): an access of three bytes is the 2-byte and
the 1-byte access of the command put together, and a read after a write of the same bytes gives the value back. -/

namespace Sys2Proof

theorem decode_get24le {b : Beat} (h : b.cw = 0x20) : decode b = .ok (.get24le b.op0) :=
  decode_of_findIdx (k := 6) (by rw [h]; decide) rfl

theorem decode_put24le {b : Beat} (h : b.cw = 0x21) : decode b = .ok (.put24le b.op0 (b.op1.setWidth 32)) :=
  decode_of_findIdx (k := 7) (by rw [h]; decide) rfl

namespace Machine

/-! ## Little-endian accesses put together (R52, R53) -/

/-- A read of `n + k` bytes is a read of `n` bytes and, above it, a read of the next `k`. -/
theorem Memory.readLE_add (m : Memory) (a n k : Nat) :
    m.readLE a (n + k) = m.readLE a n + 256 ^ n * m.readLE (a + n) k := by
  induction n generalizing a with
  | zero => simp [Memory.readLE]
  | succ n ih =>
    rw [Nat.succ_add, Memory.readLE, Memory.readLE, ih, Nat.pow_succ, show a + 1 + n = a + (n + 1) by omega]
    ring

/-- A write of `n + k` bytes is a write of the low `n` bytes of the value, then one of the next `k`. -/
theorem Memory.writeLE_add (m : Memory) (a n k v : Nat) :
    m.writeLE a (n + k) v = (m.writeLE a n v).writeLE (a + n) k (v / 256 ^ n) := by
  induction n generalizing m a v with
  | zero => simp [Memory.writeLE]
  | succ n ih =>
    rw [Nat.succ_add, Memory.writeLE, Memory.writeLE, ih, Nat.pow_succ', Nat.div_div_eq_div_mul,
      show a + 1 + n = a + (n + 1) by omega]

/-- A write of `n` bytes looks at the low `n` bytes of the value alone. -/
theorem Memory.writeLE_mod (m : Memory) (a n v : Nat) : m.writeLE a n (v % 256 ^ n) = m.writeLE a n v := by
  induction n generalizing m a v with
  | zero => rfl
  | succ n ih =>
    have hlow : BitVec.ofNat 8 (v % 256 ^ (n + 1)) = BitVec.ofNat 8 v := by
      apply BitVec.eq_of_toNat_eq
      exact Nat.mod_mod_of_dvd v (dvd_pow_self 256 n.succ_ne_zero)
    have hhigh : v % 256 ^ (n + 1) / 256 = v / 256 % 256 ^ n := by
      rw [Nat.pow_succ', Nat.mod_mul_right_div_self]
    rw [Memory.writeLE, Memory.writeLE, hlow, hhigh, ih]

/-- A read of the bytes just written gives the value, cut to their number. -/
theorem Memory.readLE_writeLE (m : Memory) (a n v : Nat) : (m.writeLE a n v).readLE a n = v % 256 ^ n := by
  induction n generalizing m a v with
  | zero => simp [Memory.readLE, Nat.mod_one]
  | succ n ih =>
    have hlow : ((m.writeLE a (n + 1) v).read a).toNat = v % 256 := by
      simp [Memory.read_writeLE]
    rw [Memory.readLE, hlow, Memory.writeLE, ih, Nat.pow_succ', Nat.mod_mul]

/-! ## One equation per case of each meaning (R120, R121) -/

theorem exec_get24le_of_lt {a : Word64} {s : State} (h : s.cfg.memSize < a.toNat + 3) :
    exec (.get24le a) s = .next (raise .indexOutOfRange 0 0x0032 s) :=
  if_neg (by simpa using h)

/-- The two reads of R120 are one read of three bytes. -/
theorem exec_get24le_of_le {a : Word64} {s : State} (h : a.toNat + 3 ≤ s.cfg.memSize) :
    exec (.get24le a) s = .next (respond (BitVec.ofNat 64 (s.mem.readLE a.toNat 3)) 0 s) := by
  rw [Memory.readLE_add s.mem a.toNat 2 1, Nat.mul_comm]
  exact if_pos ((inBounds_eq_true ..).2 h)

theorem exec_put24le_of_lt {a : Word64} {s : State} (h : s.cfg.memSize < a.toNat + 3) (v : Word32) :
    exec (.put24le a v) s = .next (raise .indexOutOfRange 0 0x0032 s) :=
  if_neg (by simpa using h)

/-- The two writes of R121 are one write of three bytes. -/
theorem memWrite_two_then_one (a v : Nat) (s : State) :
    memWrite (a + 2) 1 (v / 2 ^ 16 % 2 ^ 8) (memWrite a 2 (v % 2 ^ 16) s) = memWrite a 3 v s := by
  have hmem : (s.mem.writeLE a 2 (v % 256 ^ 2)).writeLE (a + 2) 1 (v / 256 ^ 2 % 256 ^ 1) = s.mem.writeLE a 3 v := by
    rw [Memory.writeLE_mod, Memory.writeLE_mod, ← Memory.writeLE_add]
  exact congrArg (fun m => { s with mem := m }) hmem

theorem exec_put24le_of_le {a : Word64} {s : State} (h : a.toNat + 3 ≤ s.cfg.memSize) (v : Word32) :
    exec (.put24le a v) s = .next (respond 0 0 (memWrite a.toNat 3 v.toNat s)) := by
  rw [← memWrite_two_then_one]
  exact if_pos ((inBounds_eq_true ..).2 h)

/-! ## The results as numbers and bytes -/

theorem ofNat_readLE_toNat (m : Memory) (a : Nat) {n : Nat} (hn : n ≤ 8) :
    (BitVec.ofNat 64 (m.readLE a n)).toNat = m.readLE a n :=
  Nat.mod_eq_of_lt (lt_of_lt_of_le (m.readLE_lt a n) (Nat.pow_le_pow_right (by decide) hn))

theorem Memory.readLE_three (m : Memory) (a : Nat) :
    m.readLE a 3 = (m.read a).toNat + 2 ^ 8 * (m.read (a + 1)).toNat + 2 ^ 16 * (m.read (a + 2)).toNat := by
  simp only [Memory.readLE, show a + 1 + 1 = a + 2 from rfl]
  omega

/-- Byte `k` of the value is stored at `a + k` (R53). -/
theorem Memory.read_writeLE_byte {n k : Nat} (hk : k < n) (m : Memory) (a : Nat) (v : Word32) :
    (m.writeLE a n v.toNat).read (a + k) = v.extractLsb' (8 * k) 8 := by
  rw [Memory.read_writeLE, if_pos (by omega), Nat.add_sub_cancel_left, BitVec.extractLsb',
    Nat.shiftRight_eq_div_pow, Nat.pow_mul]

theorem Memory.read_writeLE_of_outside {a n x : Nat} (hx : x < a ∨ a + n ≤ x) (m : Memory) (v : Nat) :
    (m.writeLE a n v).read x = m.read x := by
  rw [Memory.read_writeLE, if_neg (by omega)]

/-! ## The two commands -/

/-- Settles O15: in bounds the answer is the three-byte read, which fits the 64-bit result. -/
theorem get24leReadsThreeBytes : Obligations.Get24leReadsThreeBytes := by
  refine ⟨fun b => decode_get24le, fun a s => ⟨exec_get24le_of_lt, fun h => ⟨_, ?_, exec_get24le_of_le h⟩⟩⟩
  rw [ofNat_readLE_toNat _ _ (by decide), Memory.readLE_three]

/-- Settles O16: the new memory is the old one after a three-byte write. -/
theorem put24leStoresThreeBytes : Obligations.Put24leStoresThreeBytes := by
  refine ⟨fun b => decode_put24le, fun a v s => ⟨fun h => exec_put24le_of_lt h v, fun h => ?_⟩⟩
  have hbyte (k : Nat) (hk : k < 3) := Memory.read_writeLE_byte hk s.mem a.toNat v
  exact ⟨s.mem.writeLE a.toNat 3 v.toNat, hbyte 0 (by decide), hbyte 1 (by decide), hbyte 2 (by decide),
    fun x hx => Memory.read_writeLE_of_outside hx s.mem v.toNat, exec_put24le_of_le h v⟩

/-- Settles O17: the write leaves `MEM_SIZE`, so the read is in bounds too, and it reads the bytes just written. -/
theorem get24leAfterPut24leReturnsTheValue : Obligations.Get24leAfterPut24leReturnsTheValue := by
  intro a v s h
  refine ⟨_, _, exec_put24le_of_le h v, exec_get24le_of_le h, ?_⟩
  rw [ofNat_readLE_toNat _ _ (by decide), respond_mem, memWrite_mem, Memory.readLE_writeLE,
    show 256 ^ 3 = 2 ^ 24 from rfl]

end Machine

end Sys2Proof

/-! Proofs about the validation commands (spec rules R125 to R128): the beats that decode to each, one equation per case
of each meaning, and the errors they take in the spec's numbers. -/

namespace Sys2Proof

/-! ## The beats of the validation commands (R84, R85) -/

theorem takeBool_eq_decide (l : Word64) : takeBool l = decide (l ≠ 0) := by
  rw [takeBool, decide_not, ← beq_eq_decide, bne]

theorem decode_verify {b : Beat} (h : b.cw = 0x30) :
    decode b = .ok (.verify (decide (b.op0 ≠ 0)) b.op1 (b.op2.setWidth 16)) := by
  rw [← takeBool_eq_decide]
  exact decode_of_findIdx (k := 8) (by rw [h]; decide) rfl

theorem decode_chkarg {b : Beat} (h : b.cw = 0x31) :
    decode b = .ok (.chkarg (decide (b.op0 ≠ 0)) (b.op2.setWidth 16)) := by
  rw [← takeBool_eq_decide]
  exact decode_of_findIdx (k := 9) (by rw [h]; decide) rfl

theorem decode_chkstate {b : Beat} (h : b.cw = 0x32) :
    decode b = .ok (.chkstate (decide (b.op0 ≠ 0)) (b.op2.setWidth 16)) := by
  rw [← takeBool_eq_decide]
  exact decode_of_findIdx (k := 10) (by rw [h]; decide) rfl

theorem decode_chkpos {b : Beat} (h : b.cw = 0x33) : decode b = .ok (.chkpos b.op0 b.op1 b.op2) :=
  decode_of_findIdx (k := 11) (by rw [h]; decide) rfl

namespace Machine

/-! ## One equation per case of each meaning (R125 to R128) -/

theorem exec_verify_true (offset : Word64) (reason : BitVec 16) (s : State) :
    exec (.verify true offset reason) s = .next (respond 0 0 s) := rfl

theorem exec_verify_false (offset : Word64) (reason : BitVec 16) (s : State) :
    exec (.verify false offset reason) s = .next (raise .malformedInput offset reason s) := rfl

theorem exec_chkarg_true (reason : BitVec 16) (s : State) :
    exec (.chkarg true reason) s = .next (respond 0 0 s) := rfl

theorem exec_chkarg_false (reason : BitVec 16) (s : State) :
    exec (.chkarg false reason) s = .next (raise .invalidArgument 0 reason s) := rfl

theorem exec_chkstate_true (reason : BitVec 16) (s : State) :
    exec (.chkstate true reason) s = .next (respond 0 0 s) := rfl

theorem exec_chkstate_false (reason : BitVec 16) (s : State) :
    exec (.chkstate false reason) s = .next (raise .invalidState 0 reason s) := rfl

section Chkpos

variable {start stop size : Word64}

theorem exec_chkpos_of_bad_start (h : start.toInt < 0 ∨ size.toInt < start.toInt) (s : State) :
    exec (.chkpos start stop size) s = .next (raise .indexOutOfRange 0 0x0030 s) :=
  if_pos h

theorem exec_chkpos_of_bad_stop (h0 : 0 ≤ start.toInt) (hsize : start.toInt ≤ size.toInt)
    (h : stop.toInt < 0 ∨ size.toInt < stop.toInt ∨ stop.toInt < start.toInt) (s : State) :
    exec (.chkpos start stop size) s = .next (raise .indexOutOfRange 0 0x0031 s) :=
  (if_neg (not_or_intro h0.not_gt hsize.not_gt)).trans (if_pos h)

theorem exec_chkpos_of_ordered (h0 : 0 ≤ start.toInt) (hstop : start.toInt ≤ stop.toInt)
    (hsize : stop.toInt ≤ size.toInt) (s : State) :
    exec (.chkpos start stop size) s = .next (respond 0 0 s) := by
  have hgoodStart : ¬ (start.toInt < 0 ∨ size.toInt < start.toInt) := by omega
  have hgoodStop : ¬ (stop.toInt < 0 ∨ size.toInt < stop.toInt ∨ stop.toInt < start.toInt) := by omega
  exact (if_neg hgoodStart).trans (if_neg hgoodStop)

end Chkpos

/-! ## The errors in the spec's numbers (R180, R184) -/

theorem raise_malformedInput_eq (offset : Word64) (reason : BitVec 16) (s : State) :
    raise .malformedInput offset reason s =
      { s with
        errFlags := s.errFlags ||| 0b00001, errKind := 1, errOff := offset, errRsn := reason
        response := some { st := 1, fl := flags s, res0 := offset, res1 := reason.setWidth 64 } } := rfl

/-- Whatever offset the kind is raised with, 0 is recorded. -/
theorem raise_invalidArgument_eq (offset : Word64) (reason : BitVec 16) (s : State) :
    raise .invalidArgument offset reason s =
      { s with
        errFlags := s.errFlags ||| 0b00010, errKind := 2, errOff := 0, errRsn := reason
        response := some { st := 2, fl := flags s, res0 := 0, res1 := reason.setWidth 64 } } := rfl

/-- Whatever offset the kind is raised with, 0 is recorded. -/
theorem raise_invalidState_eq (offset : Word64) (reason : BitVec 16) (s : State) :
    raise .invalidState offset reason s =
      { s with
        errFlags := s.errFlags ||| 0b00100, errKind := 3, errOff := 0, errRsn := reason
        response := some { st := 3, fl := flags s, res0 := 0, res1 := reason.setWidth 64 } } := rfl

/-! ## The four commands -/

/-- Settles O21: the two tests of the command cover every triple, and no `start` lies between 0 and a negative size. -/
theorem chkposTestsTheTriple : Obligations.ChkposTestsTheTriple := by
  refine ⟨fun b => decode_chkpos, fun a e z s => ⟨fun h0 hae hez => exec_chkpos_of_ordered h0 hae hez s,
    fun hbad => exec_chkpos_of_bad_start hbad s, fun h0 haz hbad => exec_chkpos_of_bad_stop h0 haz hbad s,
    fun hneg => ?_⟩⟩
  have hbad : a.toInt < 0 ∨ z.toInt < a.toInt := by omega
  exact exec_chkpos_of_bad_start hbad s

/-- Settles O18: a false condition takes MalformedInput, the one kind that records the host's offset. -/
theorem verifyRaisesMalformedInput : Obligations.VerifyRaisesMalformedInput := by
  refine ⟨fun b => decode_verify, fun offset reason s => ⟨exec_verify_true offset reason s, ?_⟩⟩
  rw [exec_verify_false, raise_malformedInput_eq]

/-- Settles O19: a false condition takes InvalidArgument. -/
theorem chkargRaisesInvalidArgument : Obligations.ChkargRaisesInvalidArgument := by
  refine ⟨fun b => decode_chkarg, fun reason s => ⟨exec_chkarg_true reason s, ?_⟩⟩
  rw [exec_chkarg_false, raise_invalidArgument_eq]

/-- Settles O20: a false condition takes InvalidState. -/
theorem chkstateRaisesInvalidState : Obligations.ChkstateRaisesInvalidState := by
  refine ⟨fun b => decode_chkstate, fun reason s => ⟨exec_chkstate_true reason s, ?_⟩⟩
  rw [exec_chkstate_false, raise_invalidState_eq]

end Machine

end Sys2Proof

/-! Proofs about INIT (spec rules R135 to R138): the beat that decodes to it, one equation per exit of its steps, and
the one lemma that says what a new session holds, in the normal case and in the tail case. -/

namespace Sys2Proof

theorem decode_init {b : Beat} (h : b.cw = 0x40) : decode b = .ok (.init b.op0 b.op1) :=
  decode_of_findIdx (k := 12) (by rw [h]; decide) rfl

namespace Machine

/-! ## The two ends of a command (R88, R180) -/

theorem not_succeeded_raise (k : ErrKind) (o : Word64) (r : BitVec 16) (s : State) : ¬ succeeded (raise k o r s) := by
  rintro ⟨x, hx, hst⟩
  have hcode : errCode k = 0 := by rwa [← Option.some.inj hx] at hst
  cases k <;> exact absurd hcode (by decide)

/-- A command that succeeds has done its work and responded. -/
theorem work_of_succeeded {i : Instr} {s t : State} (h : exec i s = .next t) (ht : succeeded t) :
    ∃ u r0 r1, Work i s u ∧ t = respond r0 r1 u := by
  obtain ⟨k, o, r, rfl, -⟩ | hwork := exec_cases h
  · exact absurd ht (not_succeeded_raise k o r s)
  · exact hwork

/-! ## One equation per exit of INIT (R135) -/

section Init

variable {start stop : Word64} {s : State}

theorem exec_init_of_empty (h : stop.toNat ≤ start.toNat) :
    exec (.init start stop) s = .next (raise .malformedInput start 0x0001 s) :=
  if_pos h

theorem exec_init_of_beyond (hlt : start.toNat < stop.toNat) (h : s.cfg.memSize < stop.toNat) :
    exec (.init start stop) s = .next (raise .indexOutOfRange 0 0x0032 s) :=
  (if_neg hlt.not_ge).trans (if_pos h)

theorem exec_init_of_unmarked (hlt : start.toNat < stop.toNat) (hle : stop.toNat ≤ s.cfg.memSize)
    (h : s.mem.read (stop.toNat - 1) = 0) :
    exec (.init start stop) s = .next (raise .malformedInput stop 0x0002 s) :=
  (if_neg hlt.not_ge).trans ((if_neg hle.not_gt).trans (if_pos h))

theorem exec_init_of_marked (hlt : start.toNat < stop.toNat) (hle : stop.toNat ≤ s.cfg.memSize)
    (h : s.mem.read (stop.toNat - 1) ≠ 0) {t : State}
    (ht : startSession start stop (s.mem.read (stop.toNat - 1)) s = t) :
    exec (.init start stop) s = .next (respond t.bits (zext64 t.bc) t) := by
  subst ht
  exact (if_neg hlt.not_ge).trans ((if_neg hle.not_gt).trans (if_neg h))

end Init

/-! ## The new session (R136, R137) -/

theorem byte_toNat_ne_zero {b : Byte} (h : b ≠ 0) : b.toNat ≠ 0 := fun h0 => h (BitVec.eq_of_toNat_eq h0)

theorem hb_byte_lt {b : Byte} (h : b ≠ 0) : hb b.toNat < 8 := hb_lt (byte_toNat_ne_zero h) b.isLt

/-- Bit 7 is the highest set bit of the bytes from `0x80` up (the table of R136). -/
theorem hb_byte_eq_seven_iff {b : Byte} (h : b ≠ 0) : hb b.toNat = 7 ↔ 0x80 ≤ b.toNat := by
  refine ⟨fun h7 => ?_, fun hge => hb_unique (k := 7) hge b.isLt⟩
  have hlow := (hb_spec (byte_toNat_ne_zero h)).1
  rwa [h7] at hlow

/-- A count of INIT fits `BC`: at most 63 bits in the frame and 64 of padding. -/
theorem ofNat_initialCount_add_toNat (last : Byte) {n : Nat} (hn : n ≤ 64) :
    (BitVec.ofNat 32 (initialCount last + n)).toNat = n + (63 - hb last.toNat) := by
  rw [BitVec.toNat_ofNat, initialCount, Config.frameBits]
  omega

/-- What a session holds right after INIT; a range of eight bytes or more has no padding. -/
theorem startSession_eq_commitSession (start stop : Word64) (last : Byte) (s : State) :
    ∃ (cur w : Word64) (c : Word32), startSession start stop last s = commitSession start stop cur w c s ∧
      c.toNat = (8 - (stop.toNat - start.toNat)) * 8 + (63 - hb last.toNat) ∧
      (8 ≤ stop.toNat - start.toNat → cur.toNat = stop.toNat - 8 ∧ holdsBytes s.mem (stop.toNat - 8) 8 w) ∧
      (stop.toNat - start.toNat < 8 → cur = start ∧
        holdsBytes s.mem start.toNat (stop.toNat - start.toNat) w) := by
  obtain h | h := Nat.lt_or_ge (stop.toNat - start.toNat) 8
  · exact ⟨_, _, _, if_neg h.not_ge, ofNat_initialCount_add_toNat last (by omega), fun h8 => absurd h8 h.not_ge,
      fun _ => ⟨rfl, holdsBytes_readLE _ _ h.le⟩⟩
  · have hcur : (stop - 8).toNat = stop.toNat - 8 := sub_ofNat_toNat (k := 8) (by omega)
    refine ⟨_, _, _, if_pos h, ?_, fun _ => ⟨hcur, ?_⟩, fun h7 => absurd h h7.not_ge⟩
    · rw [Nat.sub_eq_zero_of_le h]
      exact ofNat_initialCount_add_toNat last (n := 0) (by decide)
    · rw [← hcur]
      exact holdsBytes_readLE _ _ (le_refl 8)

/-- Settles O22: the exits of INIT in their order, the last of which opens the session of R137. -/
theorem initOpensASessionOrRaises : Obligations.InitOpensASessionOrRaises := by
  refine ⟨fun b => decode_init, fun a e s =>
    ⟨exec_init_of_empty, exec_init_of_beyond, exec_init_of_unmarked, fun hlt hle hlast => ?_⟩⟩
  obtain ⟨hlow, hhigh⟩ := hb_spec (byte_toNat_ne_zero hlast)
  obtain ⟨cur, w, c, hsession, hc, hnormal, htail⟩ :=
    startSession_eq_commitSession a e (s.mem.read (e.toNat - 1)) s
  refine ⟨_, cur, w, c, _, hlow, hhigh, fun h8 => ?_, fun h7 => ?_, exec_init_of_marked hlt hle hlast hsession, rfl⟩
  · obtain ⟨hcur, hw⟩ := hnormal h8
    exact ⟨hcur, hw, by omega⟩
  · obtain ⟨hcur, hw⟩ := htail h7
    exact ⟨hcur, hw, hc⟩

/-! ## The first LOAD of a short range (R138, R155) -/

theorem exec_load_of_overflow {s : State} (hact : s.act = true) (hbc : 64 < s.bc.toNat) :
    exec .load s = .next (respondWindow (latchOverflow s)) :=
  (if_neg (by simp [hact])).trans (if_pos hbc)

/-- Settles O23: the count is `8 * (8 - size) + 63 - hb last`, and the highest bit of the last byte is one of its
eight. -/
theorem initialCountOfShortRangesIsAtLeastSixtyFour : Obligations.InitialCountOfShortRangesIsAtLeastSixtyFour := by
  intro a e s t hlt hexec hsucc
  obtain ⟨u, r0, r1, ⟨-, -, hlast, hu⟩, ht⟩ := work_of_succeeded hexec hsucc
  obtain ⟨cur, w, c, hsession, hc, -, htail⟩ := startSession_eq_commitSession a e (s.mem.read (e.toNat - 1)) s
  rw [hu, hsession] at ht
  have hbc : t.bc = c := by rw [ht, respond_bc, commitSession_bc]
  have hact : t.act = true := by rw [ht, respond_act, commitSession_act]
  have hhb := hb_byte_lt hlast
  rw [hbc]
  refine ⟨fun h8 => by omega, fun h7 => ⟨by omega, ?_, fun heq => ?_, fun hne => ?_⟩⟩
  · rw [← hb_byte_eq_seven_iff hlast]
    omega
  · have hcur : t.cur = t.start := by simpa [ht] using (htail h7).1
    rw [flags_bit3, eosFlag_iff, hbc]
    exact ⟨hact, hcur, BitVec.eq_of_toNat_eq heq⟩
  · have hover : 64 < t.bc.toNat := by rw [hbc]; omega
    exact ⟨_, exec_load_of_overflow hact hover, rfl⟩

end Machine

end Sys2Proof

/-! Proofs about PEEK and PEEKF (spec rules R145 to R149): the beats that decode to each, their tests once the operands
are known, the value as a number and bit by bit, and that the answer depends on the operands alone. -/

namespace Sys2Proof

/-! ## The beats of the peeks (R84, R85) -/

theorem decode_peek {b : Beat} (h : b.cw = 0x41) :
    decode b = .ok (.peek false b.op0 (b.op1.setWidth 32) (b.op2.setWidth 32)) := by
  rw [decode_of_findIdx (k := 13) (by rw [h]; decide) rfl, h]
  rfl

theorem decode_peek_cursor {b : Beat} (h : b.cw = 0x141) : decode b = .ok (.peek true 0 0 (b.op2.setWidth 32)) := by
  rw [decode_of_findIdx (k := 13) (by rw [h]; decide) rfl, h]
  rfl

theorem decode_peekf {b : Beat} (h : b.cw = 0x42) :
    decode b = .ok (.peekf false b.op0 (b.op1.setWidth 32) (b.op2.setWidth 32)) := by
  rw [decode_of_findIdx (k := 14) (by rw [h]; decide) rfl, h]
  rfl

theorem decode_peekf_cursor {b : Beat} (h : b.cw = 0x142) : decode b = .ok (.peekf true 0 0 (b.op2.setWidth 32)) := by
  rw [decode_of_findIdx (k := 14) (by rw [h]; decide) rfl, h]
  rfl

namespace Machine

/-! ## The tests of a peek (R145, R146) -/

section Peek

variable {c : Bool} {w₀ w : Word64} {b₀ b n : Word32} {s : State}

theorem exec_peek_of_none (h : peekOperands c w₀ b₀ s = none) :
    exec (.peek c w₀ b₀ n) s = .next (raise .invalidState 0 0x0020 s) := by
  simp only [exec, execPeek, h, rsnNoSession]

theorem exec_peek_of_some (h : peekOperands c w₀ b₀ s = some (w, b)) :
    exec (.peek c w₀ b₀ n) s =
      if 63 < b.toNat then .next (raise .invalidArgument 0 0x0016 s)
      else if 63 < n.toNat then .next (raise .invalidArgument 0 0x0017 s)
      else .next (respond (peekValue w b.toNat n.toNat) 0 s) := by
  simp only [exec, execPeek, h, rsnPeekBc, rsnPeekN]

theorem exec_peekf_of_none (h : peekOperands c w₀ b₀ s = none) :
    exec (.peekf c w₀ b₀ n) s = .next (raise .invalidState 0 0x0020 s) := by
  simp only [exec, execPeekf, h, rsnNoSession]

theorem exec_peekf_of_some (h : peekOperands c w₀ b₀ s = some (w, b)) :
    exec (.peekf c w₀ b₀ n) s =
      if 63 < b.toNat then .next (raise .invalidArgument 0 0x0016 s)
      else if n.toNat < 1 ∨ 64 < n.toNat then .next (raise .invalidArgument 0 0x0017 s)
      else .next (respond (peekfValue w b.toNat n.toNat) 0 s) := by
  simp only [exec, execPeekf, h, rsnPeekBc, rsnPeekN]

theorem exec_peek_of_le (h : peekOperands c w₀ b₀ s = some (w, b)) (hb : b.toNat ≤ 63) (hn : n.toNat ≤ 63) :
    exec (.peek c w₀ b₀ n) s = .next (respond (peekValue w b.toNat n.toNat) 0 s) := by
  rw [exec_peek_of_some h, if_neg hb.not_gt, if_neg hn.not_gt]

theorem exec_peekf_of_le (h : peekOperands c w₀ b₀ s = some (w, b)) (hb : b.toNat ≤ 63) (h1 : 1 ≤ n.toNat)
    (h64 : n.toNat ≤ 64) : exec (.peekf c w₀ b₀ n) s = .next (respond (peekfValue w b.toNat n.toNat) 0 s) := by
  rw [exec_peekf_of_some h, if_neg hb.not_gt, if_neg (not_or_intro h1.not_gt h64.not_gt)]

theorem exec_peek_of_width (h : peekOperands c w₀ b₀ s = some (w, b)) (hb : b.toNat ≤ 63) (hn : 63 < n.toNat) :
    exec (.peek c w₀ b₀ n) s = .next (raise .invalidArgument 0 0x0017 s) := by
  rw [exec_peek_of_some h, if_neg hb.not_gt, if_pos hn]

theorem exec_peekf_of_width (h : peekOperands c w₀ b₀ s = some (w, b)) (hb : b.toNat ≤ 63)
    (hn : n.toNat < 1 ∨ 64 < n.toNat) : exec (.peekf c w₀ b₀ n) s = .next (raise .invalidArgument 0 0x0017 s) := by
  rw [exec_peekf_of_some h, if_neg hb.not_gt, if_pos hn]

end Peek

/-! ## The value of a peek (R145, R146, R148) -/

theorem peekValue_toNat (w : Word64) (b n : Nat) :
    (peekValue w b n).toNat = w.toNat * 2 ^ b % 2 ^ 64 / 2 / 2 ^ (63 - n) := by
  rw [peekValue, shr64_toNat, shr64_toNat, shl64_toNat, pow_one]

theorem peekfValue_toNat (w : Word64) (b n : Nat) :
    (peekfValue w b n).toNat = w.toNat * 2 ^ b % 2 ^ 64 / 2 ^ (64 - n) := by
  rw [peekfValue, shr64_toNat, shl64_toNat]

/-- The two right shifts of PEEK are the one of PEEKF, also at `n = 0`, where it shifts everything out. -/
theorem peekValue_eq_peekfValue (w : Word64) (b : Nat) {n : Nat} (hn : n ≤ 63) :
    peekValue w b n = peekfValue w b n := by
  rw [peekValue, peekfValue, shr64, shr64, shr64, ← BitVec.shiftRight_add, show 1 + (63 - n) = 64 - n by omega]

theorem peekfValue_lt (w : Word64) (b : Nat) {n : Nat} (hn : n ≤ 64) : (peekfValue w b n).toNat < 2 ^ n := by
  rw [peekfValue, shr64_toNat, Nat.div_lt_iff_lt_mul (Nat.two_pow_pos _), ← pow_add, Nat.add_sub_cancel' hn]
  exact BitVec.isLt _

/-- A peek of no bits is zero (R148). -/
theorem peekValue_zero (w : Word64) (b : Nat) : peekValue w b 0 = 0 := by
  rw [peekValue_eq_peekfValue w b (Nat.zero_le 63)]
  exact BitVec.eq_of_toNat_eq (Nat.lt_one_iff.1 (peekfValue_lt w b (Nat.zero_le 64)))

/-- Bit `j` of a peek is bit `64 + j - b - n` of the window, and zero below the window (R148). -/
theorem peekfValue_getLsbD (w : Word64) (b : Nat) {n : Nat} (hn : n ≤ 64) (j : Nat) :
    (peekfValue w b n).getLsbD j = (decide (j < n ∧ b + n ≤ 64 + j) && w.getLsbD (64 + j - (b + n))) := by
  have hindex : 64 - n + j - b = 64 + j - (b + n) := by omega
  have hmask : (decide (64 - n + j < 64) && !decide (64 - n + j < b)) = decide (j < n ∧ b + n ≤ 64 + j) := by
    rw [← decide_not, ← Bool.decide_and]
    exact decide_eq_decide.2 (by omega)
  rw [peekfValue, shr64, shl64, BitVec.getLsbD_ushiftRight, BitVec.getLsbD_shiftLeft, hindex, hmask]

/-! ## The answer of a peek (R149) -/

/-- Status and results of the response a command ends with, the `FL` field aside (R88). -/
def resultsOf : Host.Outcome State Fault Refusal → Option (BitVec 3 × Word64 × Word64)
  | .next t => t.response.map fun r => (r.st, r.res0, r.res1)
  | .fault _ | .refused _ => none

/-- The operands of a peek come from the lanes and from `BITS`, `BC` and `ACT` alone (R147). -/
theorem peekOperands_congr (c : Bool) (w : Word64) (b : Word32) {s s' : State} (hbits : s'.bits = s.bits)
    (hbc : s'.bc = s.bc) (hact : s'.act = s.act) : peekOperands c w b s' = peekOperands c w b s := by
  simp only [peekOperands, hbits, hbc, hact]

section Answer

variable {c : Bool} {w : Word64} {b : Word32} {s s' : State}

theorem resultsOf_peek_congr (n : Word32) (h : peekOperands c w b s' = peekOperands c w b s) :
    resultsOf (exec (.peek c w b n) s') = resultsOf (exec (.peek c w b n) s) := by
  cases hs : peekOperands c w b s with
  | none =>
    rw [exec_peek_of_none hs, exec_peek_of_none (h.trans hs)]
    rfl
  | some o =>
    rw [exec_peek_of_some hs, exec_peek_of_some (h.trans hs)]
    split_ifs <;> rfl

theorem resultsOf_peekf_congr (n : Word32) (h : peekOperands c w b s' = peekOperands c w b s) :
    resultsOf (exec (.peekf c w b n) s') = resultsOf (exec (.peekf c w b n) s) := by
  cases hs : peekOperands c w b s with
  | none =>
    rw [exec_peekf_of_none hs, exec_peekf_of_none (h.trans hs)]
    rfl
  | some o =>
    rw [exec_peekf_of_some hs, exec_peekf_of_some (h.trans hs)]
    split_ifs <;> rfl

end Answer

/-- A command whose work is to leave the state as it is leaves the cursor, the flags and memory also when it raises. -/
theorem exec_frame_of_work_eq {i : Instr} {s : State} (hwork : ∀ u, Work i s u → u = s) :
    ∃ t, exec i s = .next t ∧ sameCursor s t ∧ sameFlags s t ∧ sameMemory s t ∧
      (succeeded t → t = { s with response := t.response }) := by
  obtain ⟨t, hexec, ⟨k, o, r, rfl, -⟩ | ⟨u, r0, r1, hu, rfl⟩⟩ := exec_ends i s
  · exact ⟨_, hexec, ⟨rfl, rfl, rfl, rfl, rfl⟩, ⟨rfl, rfl, rfl⟩, fun _ => rfl,
      fun hsucc => absurd hsucc (not_succeeded_raise k o r s)⟩
  · obtain rfl := hwork u hu
    exact ⟨_, hexec, ⟨rfl, rfl, rfl, rfl, rfl⟩, ⟨rfl, rfl, rfl⟩, fun _ => rfl, fun _ => rfl⟩

/-! ## The statements -/

/-- Settles O24: with its operands at hand, PEEK tests the count, then the width, and its value fits `n` bits. -/
theorem peekReturnsTheShiftedWindow : Obligations.PeekReturnsTheShiftedWindow := by
  refine ⟨fun b => decode_peek, fun b => decode_peek_cursor, ?_⟩
  rintro c w₀ _ b₀ _ n s rfl rfl
  refine ⟨fun hc hact => exec_peek_of_none (peekOperands_none hc hact), fun hform => ?_⟩
  have hops := peekOperands_eq c w₀ b₀ s hform
  refine ⟨fun hb => (exec_peek_of_some hops).trans (if_pos hb), exec_peek_of_width hops,
    fun hb hn => ⟨_, peekValue_toNat _ _ _, ?_, exec_peek_of_le hops hb hn⟩⟩
  rw [peekValue_eq_peekfValue _ _ hn]
  exact peekfValue_lt _ _ (by omega)

/-- Settles O25: PEEKF makes the same tests, on widths 1 to 64. -/
theorem peekfReturnsTheShiftedWindow : Obligations.PeekfReturnsTheShiftedWindow := by
  refine ⟨fun b => decode_peekf, fun b => decode_peekf_cursor, ?_⟩
  rintro c w₀ _ b₀ _ n s rfl rfl
  refine ⟨fun hc hact => exec_peekf_of_none (peekOperands_none hc hact), fun hform => ?_⟩
  have hops := peekOperands_eq c w₀ b₀ s hform
  refine ⟨fun hb => (exec_peekf_of_some hops).trans (if_pos hb), fun hb hn => exec_peekf_of_width hops hb ?_,
    fun hb h1 h64 => ⟨_, peekfValue_toNat _ _ _, exec_peekf_of_le hops hb h1 h64⟩⟩
  exact hn.imp_left fun h0 => Nat.lt_one_iff.2 (congrArg BitVec.toNat h0)

/-- Settles O26: up to 63 bits the two values are one, and its bits are those of the window. -/
theorem peekAndPeekfReadTheSameBits : Obligations.PeekAndPeekfReadTheSameBits := by
  intro w bc n s hbc
  have hops : peekOperands false w bc s = some (w, bc) := rfl
  refine ⟨fun h1 h63 => ?_, ?_, ?_⟩
  · have h64 : n.toNat ≤ 64 := by omega
    refine ⟨peekfValue w bc.toNat n.toNat, ?_, exec_peekf_of_le hops hbc h1 h64, peekfValue_toNat _ _ _,
      peekfValue_getLsbD _ _ h64⟩
    rw [exec_peek_of_le hops hbc h63, peekValue_eq_peekfValue _ _ h63]
  · rintro rfl
    refine ⟨?_, exec_peekf_of_width hops hbc (.inl (by decide))⟩
    rw [exec_peek_of_le hops hbc (by decide), ← peekValue_zero w bc.toNat]
    rfl
  · rintro rfl
    exact ⟨exec_peek_of_width hops hbc (by decide), exec_peekf_of_le hops hbc (by decide) (by decide)⟩

/-- Settles O27: the work of a peek is nothing, and its answer is a function of its operands, width and form. -/
theorem peeksConsumeNothing : Obligations.PeeksConsumeNothing := by
  rintro c f w bc n i rfl
  refine ⟨fun s => exec_frame_of_work_eq fun u hu => ?_, fun s s' t t' r r' hbits hbc hact ht ht' hr hr' => ?_⟩
  · cases f
    exacts [hu, hu]
  · have hops := peekOperands_congr c w bc hbits hbc hact
    have hresults : resultsOf (.next t) = resultsOf (.next t') := by
      rw [← ht, ← ht']
      cases f
      exacts [(resultsOf_peek_congr n hops).symm, (resultsOf_peekf_congr n hops).symm]
    simpa [resultsOf, hr, hr'] using hresults

end Machine

end Sys2Proof

/-! Proofs about LOAD and ISEOS (spec rules R155 to R160): one equation per row of LOAD's case table, who sets and clears
the overflow latch, and the drained state that ISEOS tests. -/

namespace Sys2Proof

/-! ## The beats of LOAD and ISEOS (R84, R85) -/

theorem decode_load {b : Beat} (h : b.cw = 0x43) : decode b = .ok .load :=
  decode_of_findIdx (k := 15) (by rw [h]; decide) rfl

theorem decode_iseos {b : Beat} (h : b.cw = 0x44) :
    decode b = .ok (.iseos false b.op0 b.op1 (b.op2.setWidth 32)) := by
  rw [decode_of_findIdx (k := 16) (by rw [h]; decide) rfl, h]
  rfl

theorem decode_iseos_cursor {b : Beat} (h : b.cw = 0x144) : decode b = .ok (.iseos true 0 0 0) := by
  rw [decode_of_findIdx (k := 16) (by rw [h]; decide) rfl, h]
  rfl

namespace Machine

/-! ## The two ways a LOAD answers (R155) -/

theorem respondWindow_latchOverflow (s : State) :
    respondWindow (latchOverflow s) = afterLoad s s.cur s.bits s.bc true true := rfl

theorem respondWindow_refill (cur bits : Word64) (bc : Word32) (exh : Bool) (s : State) :
    respondWindow (refill cur bits bc exh s) = afterLoad s cur bits bc exh s.ovf := rfl

/-- A reload in bounds answers with a window that holds the eight bytes at the new `CUR`. -/
theorem exists_window_of_reload {cur : Word64} {s : State} (h : cur.toNat + 8 ≤ s.cfg.memSize) (bc : Word32)
    (exh : Bool) :
    ∃ w, holdsBytes s.mem cur.toNat 8 w ∧ reload cur bc exh s = afterLoad s cur w bc exh s.ovf :=
  ⟨_, holdsBytes_readLE _ _ (le_refl 8), reload_of_le h⟩

/-- A reload some bytes below a `CUR` whose window lies in memory. -/
theorem exists_window_of_step_back {s : State} {bytes : Nat} (hbytes : bytes ≤ s.cur.toNat)
    (hmem : s.cur.toNat + 8 ≤ s.cfg.memSize) (bc : Word32) (exh : Bool) :
    ∃ cur w, cur.toNat = s.cur.toNat - bytes ∧ holdsBytes s.mem cur.toNat 8 w ∧
      reload (s.cur - BitVec.ofNat 64 bytes) bc exh s = afterLoad s cur w bc exh s.ovf := by
  have hcur : (s.cur - BitVec.ofNat 64 bytes).toNat = s.cur.toNat - bytes := sub_ofNat_toNat hbytes
  have hin : (s.cur - BitVec.ofNat 64 bytes).toNat + 8 ≤ s.cfg.memSize := by omega
  obtain ⟨w, hw, hreload⟩ := exists_window_of_reload hin bc exh
  exact ⟨_, w, hcur, hw, hreload⟩

/-! ## One equation per row of the case table (R155, R160) -/

section Load

variable {s : State}

theorem exec_load_of_no_session (h : s.act = false) :
    exec .load s = .next (raise .invalidState 0 0x0020 s) :=
  if_pos h

/-- Case 1. -/
theorem exec_load_latches (hact : s.act = true) (hbc : 64 < s.bc.toNat) :
    exec .load s = .next (afterLoad s s.cur s.bits s.bc true true) := by
  rw [exec_load_of_overflow hact hbc, respondWindow_latchOverflow]

/-- Case 2. -/
theorem exec_load_of_cur_eq_start (hact : s.act = true) (hbc : s.bc.toNat ≤ 64) (hcur : s.cur = s.start) :
    exec .load s = .next (afterLoad s s.cur s.bits s.bc true s.ovf) :=
  (if_neg (by simp [hact])).trans ((if_neg hbc.not_gt).trans (if_pos hcur))

/-- Case 3. -/
theorem exec_load_of_cur_ne_start (hact : s.act = true) (hbc : s.bc.toNat ≤ 64) (hcur : s.cur ≠ s.start) :
    exec .load s = .next (loadMoving s) :=
  (if_neg (by simp [hact])).trans ((if_neg hbc.not_gt).trans (if_neg hcur))

/-- Case 3a with no whole byte consumed. -/
theorem loadMoving_of_bc_lt (hfar : s.start.toNat + 8 ≤ s.cur.toNat) (hbc : s.bc.toNat < 8) :
    loadMoving s = afterLoad s s.cur s.bits s.bc false s.ovf := by
  have hbytes : ¬ 0 < s.bc.toNat / 8 := by omega
  have hrest : BitVec.ofNat 32 (s.bc.toNat % 8) = s.bc := by
    rw [Nat.mod_eq_of_lt hbc, BitVec.ofNat_toNat, BitVec.setWidth_eq]
  rw [loadMoving, if_pos hfar, if_neg hbytes, hrest, respondWindow_refill]

/-- Case 3a with a byte or more consumed. -/
theorem loadMoving_of_le_bc (hfar : s.start.toNat + 8 ≤ s.cur.toNat) (hbc : 8 ≤ s.bc.toNat) :
    loadMoving s =
      reload (s.cur - BitVec.ofNat 64 (s.bc.toNat / 8)) (BitVec.ofNat 32 (s.bc.toNat % 8)) false s := by
  have hbytes : 0 < s.bc.toNat / 8 := by omega
  rw [loadMoving, if_pos hfar, if_pos hbytes]

/-- Case 3b: the bytes consumed reach below `START`. -/
theorem loadMoving_of_lt_bytes (hlow : s.start.toNat ≤ s.cur.toNat) (hnear : s.cur.toNat < s.start.toNat + 8)
    (hbytes : s.cur.toNat < s.start.toNat + s.bc.toNat / 8) :
    loadMoving s = reload s.start (rebasedCount s.bc (s.cur.toNat - s.start.toNat : Nat)) true s := by
  rw [loadMoving, if_neg hnear.not_ge, if_pos hbytes, Int.ofNat_sub hlow]

/-- Case 3c: the bytes consumed stay at or above `START`. -/
theorem loadMoving_of_bytes_le (hnear : s.cur.toNat < s.start.toNat + 8)
    (hbytes : s.start.toNat + s.bc.toNat / 8 ≤ s.cur.toNat) :
    loadMoving s =
      reload (s.cur - BitVec.ofNat 64 (s.bc.toNat / 8)) (rebasedCount s.bc (s.bc.toNat / 8 : Nat)) false s := by
  rw [loadMoving, if_neg hnear.not_ge, if_neg hbytes.not_gt]

/-- In a session `CUR` never lies below `START`, and above it the whole window lies in memory (R32). -/
theorem cur_bounds_of_sessionInv (hact : s.act = true) (hinv : SessionInv s) :
    s.start.toNat ≤ s.cur.toNat ∧ (s.cur ≠ s.start → s.cur.toNat + 8 ≤ s.cfg.memSize) := by
  obtain ⟨-, hend, hnormal, htail⟩ := hinv hact
  obtain hsize | hsize := Nat.lt_or_ge (s.endAddr.toNat - s.start.toNat) 8
  · have hcur := htail hsize
    exact ⟨(congrArg BitVec.toNat hcur).ge, fun hne => absurd hcur hne⟩
  · obtain ⟨hlow, hhigh⟩ := hnormal hsize
    exact ⟨hlow, fun _ => hhigh.trans hend⟩

end Load

/-- Settles O28: the rows in their order; a moving row reads inside memory, because `CUR` steps back to `START` at
most. -/
theorem loadFollowsItsCaseTable : Obligations.LoadFollowsItsCaseTable := by
  refine ⟨fun b => decode_load, fun s => ⟨exec_load_of_no_session, ?_⟩⟩
  rintro hact hinv _ _ rfl rfl
  obtain ⟨hlow, hmem⟩ := cur_bounds_of_sessionInv hact hinv
  have hmoving (hbc : s.bc.toNat ≤ 64) (hd : 1 ≤ s.cur.toNat - s.start.toNat) :
      exec .load s = .next (loadMoving s) ∧ s.cur.toNat + 8 ≤ s.cfg.memSize := by
    have hne : s.cur ≠ s.start := fun h => by simp [h] at hd
    exact ⟨exec_load_of_cur_ne_start hact hbc hne, hmem hne⟩
  refine ⟨exec_load_latches hact, fun hbc hd => ?_, fun hbc hd => ?_, fun h8 h64 hd => ?_,
    fun h64 hd hnear hbytes => ?_, fun h64 hd hnear hbytes => ?_⟩
  · exact exec_load_of_cur_eq_start hact hbc (BitVec.eq_of_toNat_eq (by omega))
  · obtain ⟨hexec, -⟩ := hmoving (by omega) (by omega)
    rw [hexec, loadMoving_of_bc_lt (by omega) hbc]
  · obtain ⟨hexec, hin⟩ := hmoving h64 (by omega)
    have hrest : (BitVec.ofNat 32 (s.bc.toNat % 8)).toNat = s.bc.toNat % 8 := Nat.mod_eq_of_lt (by omega)
    obtain ⟨cur, w, hcur, hw, hreload⟩ := exists_window_of_step_back (bytes := s.bc.toNat / 8) (by omega) hin _ false
    refine ⟨cur, w, _, hcur, hw, hrest, ?_⟩
    rw [hexec, loadMoving_of_le_bc (by omega) h8, hreload]
  · obtain ⟨hexec, hin⟩ := hmoving h64 hd
    obtain ⟨w, hw, hreload⟩ := exists_window_of_reload (cur := s.start) (s := s) (by omega) _ true
    refine ⟨w, _, hw, rebasedCount_toInt _ _, ?_⟩
    rw [hexec, loadMoving_of_lt_bytes hlow (by omega) (by omega), hreload]
  · obtain ⟨hexec, hin⟩ := hmoving h64 hd
    obtain ⟨cur, w, hcur, hw, hreload⟩ := exists_window_of_step_back (bytes := s.bc.toNat / 8) (by omega) hin _ false
    refine ⟨cur, w, _, hcur, hw, rebasedCount_toInt _ _, ?_⟩
    rw [hexec, loadMoving_of_bytes_le (by omega) (by omega), hreload]

/-! ## The overflow latch (R157) -/

theorem succeeded_respond (r0 r1 : Word64) (s : State) : succeeded (respond r0 r1 s) := ⟨_, rfl, rfl⟩

/-- The work of a command leaves the latch, except that case 1 of LOAD sets it and INIT clears it. -/
theorem ovf_of_work {i : Instr} {s u : State} (h : Work i s u) :
    u.ovf = s.ovf ∨ (i = .load ∧ s.act = true ∧ 64 < s.bc.toNat ∧ u.ovf = true) ∨
      (∃ a e, i = .init a e ∧ u.ovf = false) := by
  cases i with
  | load =>
    obtain ⟨hact, ⟨hbc, rfl⟩ | ⟨-, cur, bits, bc, exh, -, rfl⟩⟩ := h
    · exact .inr (.inl ⟨rfl, hact, hbc, rfl⟩)
    · exact .inl rfl
  | init a e =>
    obtain ⟨-, -, -, rfl⟩ := h
    obtain ⟨cur, w, c, hsession, -⟩ := startSession_eq_commitSession a e (s.mem.read (e.toNat - 1)) s
    exact .inr (.inr ⟨a, e, rfl, by rw [hsession, commitSession_ovf]⟩)
  | put24le a v =>
    obtain ⟨-, rfl⟩ := h
    exact .inl rfl
  | wrreg n v =>
    obtain ⟨-, -, -, rfl⟩ | ⟨-, rfl⟩ := h
    · exact .inl rfl
    · exact .inl rfl
  | hibit | ispow2 | mask | clamp | cyclelog | mintlog | get24le | verify | chkarg | chkstate | chkpos | peek | peekf
  | iseos | rdreg | blkcmp => exact .inl (congrArg State.ovf h)

/-- What a command can do to the latch: nothing, set it by case 1 of LOAD, or clear it by an INIT that succeeds. -/
theorem ovf_of_exec {i : Instr} {s t : State} (h : exec i s = .next t) :
    t.ovf = s.ovf ∨ (i = .load ∧ s.act = true ∧ 64 < s.bc.toNat ∧ t.ovf = true) ∨
      (∃ a e, i = .init a e ∧ succeeded t ∧ t.ovf = false) := by
  obtain ⟨k, o, r, rfl, -⟩ | ⟨u, r0, r1, hwork, rfl⟩ := exec_cases h
  · exact .inl rfl
  · exact (ovf_of_work hwork).imp_right (Or.imp_right fun ⟨a, e, hi, hovf⟩ =>
      ⟨a, e, hi, succeeded_respond r0 r1 u, hovf⟩)

/-- What an interaction of the host can do to a set latch: clear it by a reset or by an INIT that succeeds. -/
theorem ovf_cleared_cases {x : HostInput} {s t : State} (h : takeInput x s = .next t) (hs : s.ovf = true)
    (ht : t.ovf = false) :
    x = .reset ∨ (∃ b, x = .resetDuring b) ∨ ∃ b a e, x = .command b ∧ decode b = .ok (.init a e) ∧ succeeded t := by
  have hne : t.ovf ≠ s.ovf := by simp [hs, ht]
  obtain ⟨b, rfl, hrun⟩ | ⟨a, v, rfl, -, rfl⟩ | ⟨rfl, -⟩ | ⟨b, rfl, -⟩ := takeInput_cases h
  · cases hdec : decode b with
    | error y =>
      cases (runCommand_of_decode_error hdec s).symm.trans hrun
      exact absurd rfl hne
    | ok i =>
      have hexec : exec i s = .next t := by simpa only [runCommand, hdec] using hrun
      obtain hsame | ⟨-, -, -, hset⟩ | ⟨a, e, rfl, hsucc, -⟩ := ovf_of_exec hexec
      · exact absurd hsame hne
      · exact absurd (hset.symm.trans ht) (by decide)
      · exact .inr (.inr ⟨b, a, e, rfl, hdec, hsucc⟩)
  · exact absurd rfl hne
  · exact .inl rfl
  · exact .inr (.inl ⟨b, rfl⟩)

theorem exec_wrreg_bc_of_ovf {s : State} (hact : s.act = true) (hovf : s.ovf = true) (v : Word64) :
    exec (.wrreg 4 v) s = .next (raise .invalidState 0 0x0021 s) :=
  (if_neg (by simp [hact])).trans (if_pos hovf)

/-! ## ISEOS (R156) -/

theorem isEndOfStream_iff (p q : Word64) (b : Word32) : isEndOfStream p q b = true ↔ q = p ∧ b = 64 := by
  simp [isEndOfStream]

theorem exec_iseos_explicit (p q : Word64) (b : Word32) (s : State) :
    exec (.iseos false p q b) s = .next (respond (boolResult (isEndOfStream p q b)) 0 s) := rfl

section Iseos

variable {s : State} (p q : Word64) (b : Word32)

theorem exec_iseos_of_no_session (h : s.act = false) :
    exec (.iseos true p q b) s = .next (raise .invalidState 0 0x0020 s) := by
  simp only [exec, execIseos, eosOperands, h, rsnNoSession]
  rfl

/-- In a session the cursor form answers `FLAGS.EOS`. -/
theorem exec_iseos_cursor (h : s.act = true) :
    exec (.iseos true p q b) s = .next (respond (boolResult (eosFlag s)) 0 s) := by
  simp only [exec, execIseos, eosOperands, eosFlag, h]
  rfl

end Iseos

/-- Settles O30: the latch by who writes it, and the dead session by its count, which stays above 64. -/
theorem overflowLatchKillsTheSession : Obligations.OverflowLatchKillsTheSession := by
  refine ⟨fun s => exec_load_latches, fun i s t h hs ht => ?_, fun x s t => ovf_cleared_cases,
    fun s ⟨hlatch, hsession⟩ hovf => ?_⟩
  · obtain hsame | ⟨hi, hact, hbc, -⟩ | ⟨-, -, -, -, hclear⟩ := ovf_of_exec h
    · exact absurd (hsame.symm.trans ht) (by simp [hs])
    · exact ⟨hi, hact, hbc⟩
    · exact absurd (hclear.symm.trans ht) (by decide)
  · obtain ⟨hexh, hbc⟩ := hlatch hovf
    have hact := hsession hexh
    have hcount : 63 < s.bc.toNat := by omega
    have heos : eosFlag s = false := by
      refine Bool.eq_false_iff.2 fun h => ?_
      obtain ⟨-, -, h64⟩ := (eosFlag_iff s).1 h
      exact absurd hbc (by rw [h64]; decide)
    refine ⟨exec_load_latches hact hbc, exec_wrreg_bc_of_ovf hact hovf, fun w b n => ?_, fun w b n => ?_,
      fun p q b => ?_⟩
    · exact (exec_peek_of_some (peekOperands_eq true w b s (.inr hact))).trans (if_pos hcount)
    · exact (exec_peekf_of_some (peekOperands_eq true w b s (.inr hact))).trans (if_pos hcount)
    · rw [exec_iseos_cursor p q b hact, heos]
      rfl

/-- Settles O32: both forms test for the drained state, and the flag is the test on the cursor registers. -/
theorem iseosTestsTheDrainedState : Obligations.IseosTestsTheDrainedState := by
  refine ⟨fun b => decode_iseos, fun b => decode_iseos_cursor, fun p q b s =>
    ⟨fun h => ?_, fun h => ?_, exec_iseos_of_no_session p q b, fun hact => ⟨fun h => ?_, fun h => ?_, ?_⟩⟩⟩
  · rw [exec_iseos_explicit, (isEndOfStream_iff p q b).2 h]
    rfl
  · rw [exec_iseos_explicit, Bool.eq_false_iff.2 (mt (isEndOfStream_iff p q b).1 h)]
    rfl
  · rw [exec_iseos_cursor p q b hact, (eosFlag_iff s).2 ⟨hact, h⟩]
    rfl
  · rw [exec_iseos_cursor p q b hact, Bool.eq_false_iff.2 fun heos => h ((eosFlag_iff s).1 heos).2]
    rfl
  · rw [exec_iseos_cursor p q b hact, flags_bit3]
    rfl

end Machine

end Sys2Proof

/-! Proofs about RDREG, WRREG and BLKCMP (spec rules R170 to R172): the beat that decodes to each, what the register of
a number is (R31), and one equation per exit of each meaning. -/

namespace Sys2Proof

/-! ## The beats of the system commands (R84, R85) -/

theorem decode_rdreg {b : Beat} (h : b.cw = 0x50) : decode b = .ok (.rdreg (b.op0.setWidth 32)) :=
  decode_of_findIdx (k := 17) (by rw [h]; decide) rfl

theorem decode_wrreg {b : Beat} (h : b.cw = 0x51) : decode b = .ok (.wrreg (b.op0.setWidth 32) b.op1) :=
  decode_of_findIdx (k := 18) (by rw [h]; decide) rfl

theorem decode_blkcmp {b : Beat} (h : b.cw = 0x60) : decode b = .ok .blkcmp :=
  decode_of_findIdx (k := 19) (by rw [h]; decide) rfl

namespace Machine

/-! ## Register numbers (R31) -/

theorem regOfNumber_eq_none {n : Word32} (h : 9 < n.toNat) : regOfNumber n = none := by
  rw [regOfNumber_ofNat]
  exact List.getElem?_eq_none h

theorem exists_regOfNumber_eq_some {n : Word32} (h : n.toNat ≤ 9) : ∃ r, regOfNumber n = some r := by
  rw [regOfNumber_ofNat]
  exact ⟨_, List.getElem?_eq_getElem (Nat.lt_succ_of_le h)⟩

/-- The cursor registers are the first five. -/
theorem isCursorReg_iff_of_regOfNumber {n : Word32} {r : Reg} (h : regOfNumber n = some r) :
    isCursorReg r = true ↔ n.toNat ≤ 4 := by
  rw [regOfNumber_ofNat] at h
  obtain ⟨hlt, rfl⟩ := List.getElem?_eq_some_iff.1 h
  generalize n.toNat = k at hlt
  decide +revert

/-- The values of the registers, zero-extended, in the order of their numbers (R170). -/
theorem getElem?_of_regOfNumber {n : Word32} {r : Reg} (h : regOfNumber n = some r) (s : State) :
    [s.start, s.endAddr, s.cur, s.bits, s.bc.setWidth 64, (flags s).setWidth 64, s.errFlags.setWidth 64,
      s.errKind.setWidth 64, s.errOff, s.errRsn.setWidth 64][n.toNat]? = some (readReg r s) := by
  have hmap := congrArg (Option.map (readReg · s)) h
  rw [regOfNumber_ofNat, ← List.getElem?_map] at hmap
  exact hmap

/-! ## One equation per exit of RDREG (R170) -/

section Rdreg

variable {n : Word32} {r : Reg} {s : State}

theorem exec_rdreg_of_unnamed (h : regOfNumber n = none) :
    exec (.rdreg n) s = .next (raise .invalidArgument 0 0x0018 s) := by
  simp only [exec, execRdreg, h, rsnRegNum]

theorem exec_rdreg_of_no_session (h : regOfNumber n = some r) (hr : isCursorReg r = true) (hact : s.act = false) :
    exec (.rdreg n) s = .next (raise .invalidState 0 0x0020 s) := by
  simp only [exec, execRdreg, h, hr, hact, rsnNoSession]
  rfl

theorem exec_rdreg_of_readable (h : regOfNumber n = some r) (hr : isCursorReg r = true → s.act = true) :
    exec (.rdreg n) s = .next (respond (readReg r s) 0 s) := by
  have hcheck : ¬ (isCursorReg r && !s.act) = true := by simpa using hr
  simp only [exec, execRdreg, h, if_neg hcheck]

end Rdreg

/-! ## One equation per exit of WRREG (R171) -/

section Wrreg

variable {n : Word32} {r : Reg} {s : State} (v : Word64)

theorem exec_wrreg_of_unnamed (h : regOfNumber n = none) :
    exec (.wrreg n v) s = .next (raise .invalidArgument 0 0x0018 s) := by
  simp only [exec, execWrreg, h, rsnRegNum]

theorem exec_wrreg_of_read_only (h : regOfNumber n = some r) (hbc : r ≠ .bc) (herr : r ≠ .errFlags) :
    exec (.wrreg n v) s = .next (raise .invalidArgument 0 0x0019 s) := by
  cases r with
  | bc => exact absurd rfl hbc
  | errFlags => exact absurd rfl herr
  | start | endAddr | cur | bits | flags | errKind | errOff | errRsn => simp only [exec, execWrreg, h, rsnRegRo]

theorem exec_wrreg_bc_of_no_session (hact : s.act = false) :
    exec (.wrreg 4 v) s = .next (raise .invalidState 0 0x0020 s) :=
  if_pos hact

theorem exec_wrreg_bc_of_session (hact : s.act = true) (hovf : s.ovf = false) :
    exec (.wrreg 4 v) s = .next (respond 0 0 (writeBc (v.setWidth 32) s)) :=
  (if_neg (by simp [hact])).trans (if_neg (by simp [hovf]))

theorem exec_wrreg_errFlags :
    exec (.wrreg 6 v) s = .next (respond 0 0 (clearErrFlags (v.setWidth 5) s)) := rfl

end Wrreg

/-- Write one to clear, bit by bit (R27). -/
theorem getLsbD_errFlags_clearErrFlags (v : Word64) (s : State) (j : Nat) :
    (clearErrFlags (v.setWidth 5) s).errFlags.getLsbD j = (s.errFlags.getLsbD j && !v.getLsbD j) := by
  obtain hj | hj := Nat.lt_or_ge j 5
  · simp [hj]
  · simp [BitVec.getLsbD_of_ge _ _ hj]

/-! ## BLKCMP (R172) -/

/-- The error of BLKCMP in the spec's numbers (R180, R181). -/
theorem exec_blkcmp (s : State) :
    exec .blkcmp s = .next
      { s with
        errFlags := s.errFlags ||| 0b10000, errKind := 5, errOff := 0, errRsn := 0x0040
        response := some { st := 5, fl := flags s, res0 := 0, res1 := 0x0040 } } := rfl

/-! ## The three commands -/

/-- Settles O33: numbers 0 to 9 name a register, of which the first five are those that need a session. -/
theorem rdregReadsTheNamedRegister : Obligations.RdregReadsTheNamedRegister := by
  refine ⟨fun b => decode_rdreg, fun n s => ⟨fun h => exec_rdreg_of_unnamed (regOfNumber_eq_none h),
    fun h hact => ?_, fun h hact => ?_⟩⟩
  · obtain ⟨r, hr⟩ := exists_regOfNumber_eq_some (h.trans (by decide))
    exact exec_rdreg_of_no_session hr ((isCursorReg_iff_of_regOfNumber hr).2 h) hact
  · obtain ⟨r, hr⟩ := exists_regOfNumber_eq_some h
    exact ⟨_, getElem?_of_regOfNumber hr s,
      exec_rdreg_of_readable hr fun hc => hact ((isCursorReg_iff_of_regOfNumber hr).1 hc)⟩

/-- Settles O34: `BC` is register 4, `ERRFLAGS` register 6, and every other number of a register is read-only. -/
theorem wrregWritesCountAndClearsErrors : Obligations.WrregWritesCountAndClearsErrors := by
  refine ⟨fun b => decode_wrreg, fun n v s => ⟨fun h => exec_wrreg_of_unnamed v (regOfNumber_eq_none h),
    fun h h4 h6 => ?_, ?_, ?_, ?_, ?_⟩⟩
  · obtain ⟨r, hr⟩ := exists_regOfNumber_eq_some h
    have hbc : r ≠ .bc := fun e => h4 (regOfNumber_eq_bc (e ▸ hr))
    have herr : r ≠ .errFlags := fun e => h6 (regOfNumber_eq_errFlags (e ▸ hr))
    exact exec_wrreg_of_read_only v hr hbc herr
  · rintro rfl hact
    exact exec_wrreg_bc_of_no_session v hact
  · rintro rfl hact hovf
    exact exec_wrreg_bc_of_ovf hact hovf v
  · rintro rfl hact hovf
    exact ⟨_, exec_wrreg_bc_of_session v hact hovf, rfl⟩
  · rintro rfl
    exact ⟨_, getLsbD_errFlags_clearErrFlags v s, exec_wrreg_errFlags v⟩

/-- Settles O35: the one exit of BLKCMP, which looks at nothing of the state. -/
theorem blkcmpAlwaysRaisesUnsupportedOperation : Obligations.BlkcmpAlwaysRaisesUnsupportedOperation :=
  ⟨fun _ => decode_blkcmp, exec_blkcmp⟩

end Machine

end Sys2Proof

/-! Proofs about errors and responses over every command beat (spec rules R180, R184): a kind's code, its sticky bit and
the offset it records, that a beat which does not succeed is one `raise`, and that no state refuses a beat. -/

namespace Sys2Proof.Machine

/-! ## The error kinds (R27, R180) -/

theorem errCode_bounds (k : ErrKind) : 1 ≤ (errCode k).toNat ∧ (errCode k).toNat ≤ 5 := by
  cases k <;> decide

/-- The sticky bit of the kind with code `c` is bit `c - 1` (R27). -/
theorem stickyBit_eq_twoPow (k : ErrKind) : stickyBit k = BitVec.twoPow 5 ((errCode k).toNat - 1) := by
  cases k <;> rfl

theorem recordedOffset_eq_zero {k : ErrKind} (h : errCode k ≠ 1) (o : Word64) : recordedOffset k o = 0 := by
  cases k with
  | malformedInput => exact absurd rfl h
  | invalidArgument | invalidState | indexOutOfRange | unsupportedOperation => rfl

/-- Taking an error sets the bit of its kind and keeps the others (R184). -/
theorem getLsbD_errFlags_raise (k : ErrKind) (o : Word64) (r : BitVec 16) (s : State) (j : Nat) :
    (raise k o r s).errFlags.getLsbD j = (s.errFlags.getLsbD j || decide (j = (errCode k).toNat - 1)) := by
  have hlt : (errCode k).toNat - 1 < 5 := by
    have := errCode_bounds k
    omega
  rw [raise_errFlags, BitVec.getLsbD_or, stickyBit_eq_twoPow, BitVec.getLsbD_twoPow]
  simp [hlt, eq_comm]

/-! ## How a command beat ends (R86, R184, R221) -/

theorem runCommand_of_decode_ok {b : Beat} {i : Instr} (h : decode b = .ok i) (s : State) :
    runCommand b s = exec i s := by
  simp [runCommand, h]

/-- A command beat that does not succeed has taken one error and done nothing else. -/
theorem exists_eq_raise_of_not_succeeded {b : Beat} {s t : State} (h : runCommand b s = .next t)
    (ht : ¬ succeeded t) : ∃ k o r, t = raise k o r s := by
  obtain ⟨rfl, -⟩ | ⟨i, -, ⟨k, o, r, rfl, -⟩ | ⟨u, r0, r1, -, rfl⟩⟩ := runCommand_cases h
  · exact ⟨_, _, _, rfl⟩
  · exact ⟨k, o, r, rfl⟩
  · exact absurd (succeeded_respond r0 r1 u) ht

/-- The engine takes every beat in every state. -/
theorem exists_runCommand_eq_next (b : Beat) (s : State) : ∃ t, runCommand b s = .next t := by
  cases hdec : decode b with
  | error x => exact ⟨_, runCommand_of_decode_error hdec s⟩
  | ok i =>
    obtain ⟨t, hexec, -⟩ := exec_ends i s
    exact ⟨t, (runCommand_of_decode_ok hdec s).trans hexec⟩

/-- Settles O37: the failing beat is one `raise`, whose every field is known. -/
theorem failingCommandsChangeOnlyTheCapture : Obligations.FailingCommandsChangeOnlyTheCapture := by
  intro b s t r hrun hr hst
  have hfail : ¬ succeeded t := by
    rintro ⟨r', hr', hst'⟩
    cases hr.symm.trans hr'
    exact hst hst'
  obtain ⟨k, o, rsn, rfl⟩ := exists_eq_raise_of_not_succeeded hrun hfail
  cases hr
  obtain ⟨hlow, hhigh⟩ := errCode_bounds k
  exact ⟨⟨rfl, rfl, rfl, rfl, rfl⟩, ⟨rfl, rfl, rfl⟩, fun _ => rfl, ⟨rfl, rfl, rfl⟩, hlow, hhigh,
    getLsbD_errFlags_raise k o rsn s, rfl, rfl, fun hk => recordedOffset_eq_zero hk o, rfl, rfl,
    fun b' => exists_runCommand_eq_next b' _⟩

end Sys2Proof.Machine

/-! Proofs about reset (spec rule R210): which commands open a session, what RDREG answers of the cursor registers
without one, and the state the reset input gives. -/

namespace Sys2Proof.Machine

/-! ## The session flag (R26, R135) -/

/-- The work of a command leaves the session flag, except that INIT sets it. -/
theorem act_of_work {i : Instr} {s u : State} (h : Work i s u) : u.act = s.act ∨ ∃ a e, i = .init a e := by
  cases i with
  | load =>
    obtain ⟨-, ⟨-, rfl⟩ | ⟨-, cur, bits, bc, exh, -, rfl⟩⟩ := h
    · exact .inl (latchOverflow_act s)
    · exact .inl (refill_act cur bits bc exh s)
  | init a e => exact .inr ⟨a, e, rfl⟩
  | put24le a v =>
    obtain ⟨-, rfl⟩ := h
    exact .inl ((memWrite_act _ _ _ _).trans (memWrite_act _ _ _ s))
  | wrreg n v =>
    obtain ⟨-, -, -, rfl⟩ | ⟨-, rfl⟩ := h
    · exact .inl (writeBc_act _ s)
    · exact .inl (clearErrFlags_act _ s)
  | hibit | ispow2 | mask | clamp | cyclelog | mintlog | get24le | verify | chkarg | chkstate | chkpos | peek | peekf
  | iseos | rdreg | blkcmp => exact .inl (congrArg State.act h)

/-- What a command can do to the session flag: nothing, unless it is an INIT that succeeds. -/
theorem act_of_exec {i : Instr} {s t : State} (h : exec i s = .next t) :
    t.act = s.act ∨ ∃ a e, i = .init a e ∧ succeeded t := by
  obtain ⟨k, o, r, rfl, -⟩ | ⟨u, r0, r1, hwork, rfl⟩ := exec_cases h
  · exact .inl (raise_act k o r s)
  · exact (act_of_work hwork).imp_right fun ⟨a, e, hi⟩ => ⟨a, e, hi, succeeded_respond r0 r1 u⟩

/-- Only an INIT that succeeds opens a session. -/
theorem init_of_act_opened {i : Instr} {s t : State} (hs : s.act = false) (h : exec i s = .next t) (ht : t.act = true) :
    ∃ a e, i = .init a e ∧ succeeded t :=
  (act_of_exec h).resolve_left fun hsame => absurd (hsame.symm.trans ht) (by simp [hs])

/-! ## RDREG without a session (R31, R170) -/

theorem exec_rdreg_cursor_of_no_session {n : Word32} (h : n.toNat ≤ 4) {s : State} (hact : s.act = false) :
    exec (.rdreg n) s = .next (raise .invalidState 0 0x0020 s) :=
  (rdregReadsTheNamedRegister.2 n s).2.1 h hact

/-! ## The state after the reset input (R38, R210) -/

/-- `FLAGS` looks at the cursor and the stored flags alone, which a reset makes those of the reset state. -/
theorem flags_resetEngine (s : State) : flags (resetEngine s) = 0 := by
  have hreset : flags (resetEngine s) = flags State.reset := rfl
  exact hreset.trans (by decide)

/-- Settles O54: the registers by the equations of `resetEngine`; the commands after it by `ACT = 0`, which only an INIT
that succeeds changes. -/
theorem resetInputGivesTheResetState : Obligations.ResetInputGivesTheResetState := by
  intro s
  have hact : (resetEngine s).act = false := resetEngine_act s
  exact ⟨resetEngine s, rfl, hact, resetEngine_ovf s, resetEngine_exh s, flags_resetEngine s, resetEngine_errFlags s,
    resetEngine_errKind s, resetEngine_errOff s, resetEngine_errRsn s, fun _ => rfl, resetEngine_host s,
    resetEngine_cfg s, fun _ hn => exec_rdreg_cursor_of_no_session hn hact,
    fun _ _ hexec hopen => init_of_act_opened hact hexec hopen,
    fun b => exists_runCommand_eq_next b (resetEngine s)⟩

end Sys2Proof.Machine

/-! Proofs about decoding and assembling (spec rules R80 to R91): what a lane gives back of an operand put into it, the
word of the command a row builds, which words decode, and what of the lanes is looked at. -/

namespace Sys2Proof

/-! ## Operands put into a lane and taken out of it (R82, R91) -/

@[simp] theorem setWidth_laneOfU32 (v : Word32) : (laneOfU32 v).setWidth 32 = v :=
  BitVec.setWidth_setWidth_of_le v (by decide)

@[simp] theorem setWidth_laneOfU16 (v : BitVec 16) : (laneOfU16 v).setWidth 16 = v := by
  simp [laneOfU16]

@[simp] theorem laneOfBool_ne_zero (c : Bool) : decide (laneOfBool c ≠ 0) = c := by
  cases c <;> decide

/-! ## Decoding an assembled beat -/

/-- Settles O1: the word of each command selects its own row, and every lane gives back the operand put into it; the
operands a cursor form does not look at are zero in a well-formed command. -/
theorem decodeOfEncodeIsTheCommand : Obligations.DecodeOfEncodeIsTheCommand := by
  intro i hwf
  cases i with
  | hibit v => simp [encode, decode_hibit]
  | ispow2 v => simp [encode, decode_ispow2]
  | mask n => simp [encode, decode_mask]
  | clamp v lo hi => simp [encode, decode_clamp]
  | cyclelog l g => simp [encode, decode_cyclelog]
  | mintlog n m => simp [encode, decode_mintlog]
  | get24le a => simp [encode, decode_get24le]
  | put24le a v => simp [encode, decode_put24le]
  | verify c o r => simp only [encode, decode_verify, laneOfBool_ne_zero, setWidth_laneOfU16]
  | chkarg c r => simp only [encode, decode_chkarg, laneOfBool_ne_zero, setWidth_laneOfU16]
  | chkstate c r => simp only [encode, decode_chkstate, laneOfBool_ne_zero, setWidth_laneOfU16]
  | chkpos a e z => simp [encode, decode_chkpos]
  | init a e => simp [encode, decode_init]
  | peek c w b n =>
    cases c with
    | false => simp [encode, withCursorBit, decode_peek]
    | true =>
      obtain ⟨rfl, rfl⟩ : w = 0 ∧ b = 0 := by simpa [wellFormed] using hwf
      simp [encode, withCursorBit, decode_peek_cursor]
  | peekf c w b n =>
    cases c with
    | false => simp [encode, withCursorBit, decode_peekf]
    | true =>
      obtain ⟨rfl, rfl⟩ : w = 0 ∧ b = 0 := by simpa [wellFormed] using hwf
      simp [encode, withCursorBit, decode_peekf_cursor]
  | load => simp [encode, decode_load]
  | iseos c p q b =>
    cases c with
    | false => simp [encode, withCursorBit, decode_iseos]
    | true =>
      obtain ⟨⟨rfl, rfl⟩, rfl⟩ : (p = 0 ∧ q = 0) ∧ b = 0 := by simpa [wellFormed] using hwf
      simp [encode, withCursorBit, decode_iseos_cursor]
  | rdreg n => simp [encode, decode_rdreg]
  | wrreg n v => simp [encode, decode_wrreg]
  | blkcmp => simp [encode, decode_blkcmp]

/-! ## The row that a beat decodes by (R85, R87) -/

theorem exists_row_of_decode {b : Beat} {i : Instr} (h : decode b = .ok i) :
    ∃ r ∈ opcodeMap, r.selects b.cw = true ∧ i = r.build (cursorBit b.cw) b := by
  unfold decode at h
  split at h
  · rename_i r hfind
    cases h
    exact ⟨r, List.mem_of_find?_eq_some hfind, List.find?_some (p := fun r : Row => r.selects b.cw) hfind, rfl⟩
  · cases h

/-- A row builds well-formed commands, whose word is its pattern, with the `C` bit where the row leaves it open. -/
theorem opcodeMap_build {r : Row} (hr : r ∈ opcodeMap) (c : Bool) (b : Beat) :
    wellFormed (r.build c b) = true ∧
      (encode (r.build c b)).cw = if r.mask = 0xFFFFFFFF then r.pattern else withCursorBit r.pattern c := by
  cases c <;> fin_cases hr <;> exact ⟨rfl, rfl⟩

theorem wellFormed_and_word_of_decode {b : Beat} {i : Instr} (h : decode b = .ok i) :
    wellFormed i = true ∧ (encode i).cw = b.cw := by
  obtain ⟨r, hr, hsel, rfl⟩ := exists_row_of_decode h
  have hw : b.cw &&& r.mask = r.pattern := by simpa [Row.selects] using hsel
  obtain ⟨hwf, hcw⟩ := opcodeMap_build hr (cursorBit b.cw) b
  refine ⟨hwf, ?_⟩
  obtain ⟨hmask, -⟩ | ⟨hmask, -⟩ := opcodeMap_words_legal r hr
  · have hall : b.cw &&& 0xFFFFFFFF = b.cw := BitVec.and_allOnes
    rw [hcw, if_pos hmask, ← hw, hmask, hall]
  · have hne : ¬ r.mask = 0xFFFFFFFF := by rw [hmask]; decide
    rw [hcw, if_neg hne, ← hw, hmask, withCursorBit_cursorBit]

/-- Settles O2: the row fixes the word, and a well-formed command decodes from its assembled beat. -/
theorem decodedCommandsAreWellFormed : Obligations.DecodedCommandsAreWellFormed := by
  intro b i h
  obtain ⟨hwf, hcw⟩ := wellFormed_and_word_of_decode h
  exact ⟨hwf, hcw, decodeOfEncodeIsTheCommand i hwf⟩

/-! ## The legal words (R85, R86) -/

theorem exists_selects_of_mem_legalWords : ∀ w ∈ legalWords, ∃ r ∈ opcodeMap, r.selects w = true := by
  intro w hw
  fin_cases hw <;> decide

/-- Settles O4: a legal word selects a row, and a row selects legal words alone. -/
theorem legalWordsAreTheTwentyThree : Obligations.LegalWordsAreTheTwentyThree := by
  intro b
  constructor
  · rintro ⟨i, hi⟩
    obtain ⟨r, hr, hsel, -⟩ := exists_row_of_decode hi
    exact mem_legalWords_of_selects hr hsel
  · intro hb
    obtain ⟨r, hr⟩ := Option.isSome_iff_exists.1 (List.find?_isSome.2 (exists_selects_of_mem_legalWords b.cw hb))
    exact ⟨r.build (cursorBit b.cw) b, by simp only [decode, hr]⟩

/-! ## What of the lanes is looked at (R82) -/

/-- Settles O3: each legal word decodes to its command with the operands taken from the lanes, and equal takings give
equal commands. -/
theorem ignoredLaneBitsHaveNoEffect : Obligations.IgnoredLaneBitsHaveNoEffect := by
  intro w x y z x' y' z'
  refine ⟨fun hw hx => ?_, fun hw hx hy => ?_, ?_, ?_, ?_, ?_, fun hw hx hz => ?_, ?_, ?_, fun hw hy hz => ?_,
    fun hw hz => ?_, ?_, fun hw => ?_⟩
  · fin_cases hw <;> simp only [decode_hibit, decode_ispow2, decode_mask, decode_rdreg, hx]
  · fin_cases hw <;> simp only [decode_cyclelog, decode_mintlog, hx, hy]
  · rintro rfl hy hz
    simp only [decode_clamp, hy, hz]
  · rintro rfl
    simp only [decode_get24le]
  · rintro rfl hy
    simp only [decode_put24le, hy]
  · rintro rfl hx hz
    simp only [decode_verify, ne_eq, hx, hz]
  · fin_cases hw <;> simp only [decode_chkarg, decode_chkstate, ne_eq, hx, hz]
  · rintro rfl
    simp only [decode_init]
  · rintro rfl hx
    simp only [decode_wrreg, hx]
  · fin_cases hw <;> simp only [decode_peek, decode_peekf, hy, hz]
  · fin_cases hw <;> simp only [decode_peek_cursor, decode_peekf_cursor, hz]
  · rintro rfl hz
    simp only [decode_iseos, hz]
  · fin_cases hw <;> simp only [decode_load, decode_iseos_cursor, decode_blkcmp]

/-- Settles O6: each word selects the row it was written for, or none, by evaluating the map. -/
theorem sampleBeatsDecode : Obligations.SampleBeatsDecode := by
  unfold Obligations.SampleBeatsDecode
  decide

end Sys2Proof

/-! Proofs about the invariant of a BISE instance (spec rules R26 to R32, R36, R50): the kinds of work a command does,
one constructor each; what a property must survive to be kept by every step; and each part of the invariant by that
list. -/

namespace Sys2Proof.Machine

/-! ## The kinds of work (R31, R53) -/

/-- The work of a command that succeeds, by what it writes: nothing, three bytes of memory, the whole cursor, the latch,
the cursor within its session, the count, or the sticky bits. -/
inductive WorkCase (s : State) : Instr → State → Prop where
  | reads {i : Instr} (hi : readsOnly i = true) : WorkCase s i s
  | stores (a : Word64) (v : Word32) (hin : a.toNat + 3 ≤ s.cfg.memSize) :
      WorkCase s (.put24le a v) (memWrite a.toNat 3 v.toNat s)
  | opens (a e cur w : Word64) (c : Word32) (hlt : a.toNat < e.toNat) (hle : e.toNat ≤ s.cfg.memSize)
      (hnormal : 8 ≤ e.toNat - a.toNat → cur.toNat = e.toNat - 8 ∧ holdsBytes s.mem (e.toNat - 8) 8 w)
      (htail : e.toNat - a.toNat < 8 → cur = a ∧ holdsBytes s.mem a.toNat (e.toNat - a.toNat) w) :
      WorkCase s (.init a e) (commitSession a e cur w c s)
  | latches (hact : s.act = true) (hbc : 64 < s.bc.toNat) : WorkCase s .load (latchOverflow s)
  | refills (cur bits : Word64) (bc : Word32) (exh : Bool) (hact : s.act = true) (hbc : s.bc.toNat ≤ 64)
      (hmove : LoadMove s cur bits bc exh) : WorkCase s .load (refill cur bits bc exh s)
  | writesCount (v : Word64) (hact : s.act = true) (hovf : s.ovf = false) :
      WorkCase s (.wrreg 4 v) (writeBc (v.setWidth 32) s)
  | clearsErrors (v : Word64) : WorkCase s (.wrreg 6 v) (clearErrFlags (v.setWidth 5) s)

theorem workCase_of_work {i : Instr} {s u : State} (h : Work i s u) : WorkCase s i u := by
  cases i with
  | put24le a v =>
    obtain ⟨hin, rfl⟩ := h
    rw [memWrite_two_then_one]
    exact .stores a v hin
  | init a e =>
    obtain ⟨hlt, hle, -, rfl⟩ := h
    obtain ⟨cur, w, c, hsession, -, hnormal, htail⟩ :=
      startSession_eq_commitSession a e (s.mem.read (e.toNat - 1)) s
    rw [hsession]
    exact .opens a e cur w c hlt hle hnormal htail
  | load =>
    obtain ⟨hact, ⟨hbc, rfl⟩ | ⟨hbc, cur, bits, bc, exh, hmove, rfl⟩⟩ := h
    · exact .latches hact hbc
    · exact .refills cur bits bc exh hact hbc hmove
  | wrreg n v =>
    obtain ⟨rfl, hact, hovf, rfl⟩ | ⟨rfl, rfl⟩ := h
    · exact .writesCount v hact hovf
    · exact .clearsErrors v
  | hibit | ispow2 | mask | clamp | cyclelog | mintlog | get24le | verify | chkarg | chkstate | chkpos | peek | peekf
  | iseos | rdreg | blkcmp =>
    obtain rfl : u = s := h
    exact .reads rfl

/-- A command takes one error, or does one kind of work and responds. -/
theorem exec_workCases {i : Instr} {s t : State} (h : exec i s = .next t) :
    (∃ k o r, t = raise k o r s) ∨ ∃ u r0 r1, WorkCase s i u ∧ t = respond r0 r1 u := by
  obtain ⟨k, o, r, ht, -⟩ | ⟨u, r0, r1, hwork, ht⟩ := exec_cases h
  · exact .inl ⟨k, o, r, ht⟩
  · exact .inr ⟨u, r0, r1, workCase_of_work hwork, ht⟩

/-- A command beat takes one error, or decodes to a command that does one kind of work and responds. -/
theorem runCommand_workCases {b : Beat} {s t : State} (h : runCommand b s = .next t) :
    (∃ k o r, t = raise k o r s) ∨
      ∃ i u r0 r1, decode b = .ok i ∧ WorkCase s i u ∧ t = respond r0 r1 u := by
  obtain ⟨ht, -⟩ | ⟨i, hdec, ⟨k, o, r, ht, -⟩ | ⟨u, r0, r1, hwork, ht⟩⟩ := runCommand_cases h
  · exact .inl ⟨_, _, _, ht⟩
  · exact .inl ⟨k, o, r, ht⟩
  · exact .inr ⟨i, u, r0, r1, hdec, workCase_of_work hwork, ht⟩

/-! ## What a reset leaves of the command it abandons (R211) -/

theorem abandonedWrites_of_put24le {a : Word64} {s : State} (h : a.toNat + 3 ≤ s.cfg.memSize) (v : Word32)
    (k : Fin 4) : abandonedWrites (.put24le a v) k s = memWrite a.toNat k.val v.toNat s :=
  if_pos ((inBounds_eq_true ..).2 h)

theorem abandonedWrites_of_not_stores {i : Instr} {s : State}
    (h : ∀ a v, i = .put24le a v → s.cfg.memSize < a.toNat + 3) (k : Fin 4) : abandonedWrites i k s = s := by
  cases i with
  | put24le a v =>
    have hout := h a v rfl
    exact if_neg (by simpa using hout)
  | hibit | ispow2 | mask | clamp | cyclelog | mintlog | get24le | verify | chkarg | chkstate | chkpos | init | peek
  | peekf | load | iseos | rdreg | wrreg | blkcmp => rfl

theorem abandonedWrites_cases (i : Instr) (k : Fin 4) (s : State) :
    abandonedWrites i k s = s ∨
      ∃ a n v, a + n ≤ s.cfg.memSize ∧ abandonedWrites i k s = memWrite a n v s := by
  by_cases h : ∃ a v, i = .put24le a v ∧ a.toNat + 3 ≤ s.cfg.memSize
  · obtain ⟨a, v, rfl, hin⟩ := h
    exact .inr ⟨a.toNat, k.val, v.toNat, by omega, abandonedWrites_of_put24le hin v k⟩
  · exact .inl (abandonedWrites_of_not_stores (fun a v hi => Nat.lt_of_not_le fun hin => h ⟨a, v, hi, hin⟩) k)

theorem resetDuringCommand_of_ok {b : Beat} {i : Instr} (h : decode b = .ok i) (s : State) :
    resetDuringCommand b s =
      resetEngine (useFreeValue (abandonedWrites i (Config.abandonedPutBytes s.freeUses) s)) := by
  simp only [resetDuringCommand, h]

theorem resetDuringCommand_of_error {b : Beat} {x : Reject} (h : decode b = .error x) (s : State) :
    resetDuringCommand b s = resetEngine s := by
  simp only [resetDuringCommand, h]

/-- A write of the host is a one-byte write of the engine's (R35, R53). -/
theorem mem_write_eq_memWrite (a : Nat) (v : Byte) (s : State) :
    { s with mem := s.mem.write a v } = memWrite a 1 v.toNat s := by
  rw [memWrite, Memory.writeLE, Memory.writeLE, BitVec.ofNat_toNat, BitVec.setWidth_eq]

/-! ## What every step keeps -/

/-- The property survives each change that a step is made of. A field left out holds because the property does not look
at what that change writes. -/
structure KeptByChanges (P : State → Prop) : Prop where
  raise : ∀ s k o r, P s → P (raise k o r s) := by exact fun _ _ _ _ h => h
  respond : ∀ s r0 r1, P s → P (respond r0 r1 s) := by exact fun _ _ _ h => h
  work : ∀ s i u, P s → WorkCase s i u → P u
  store : ∀ s a n v, a + n ≤ s.cfg.memSize → P s → P (memWrite a n v s) := by exact fun _ _ _ _ _ h => h
  reset : ∀ s, P s → P (resetEngine s) := by exact fun _ h => h
  freeValue : ∀ s, P s → P (useFreeValue s) := by exact fun _ h => h
  takeOff : ∀ s rest, P s → P { s with host := rest } := by exact fun _ _ h => h

section KeptByChanges

variable {P : State → Prop} (hP : KeptByChanges P)

include hP

theorem KeptByChanges.takeInput {x : HostInput} {s t : State} (hs : P s) (h : takeInput x s = .next t) : P t := by
  obtain ⟨b, -, hrun⟩ | ⟨a, v, -, hin, rfl⟩ | ⟨-, rfl⟩ | ⟨b, -, rfl⟩ := takeInput_cases h
  · obtain ⟨k, o, r, rfl⟩ | ⟨i, u, r0, r1, -, hwork, rfl⟩ := runCommand_workCases hrun
    · exact hP.raise s k o r hs
    · exact hP.respond u r0 r1 (hP.work s i u hs hwork)
  · rw [mem_write_eq_memWrite]
    exact hP.store s a.toNat 1 v.toNat hin hs
  · exact hP.reset s hs
  · cases hdec : decode b with
    | error y =>
      rw [resetDuringCommand_of_error hdec]
      exact hP.reset s hs
    | ok i =>
      rw [resetDuringCommand_of_ok hdec]
      refine hP.reset _ (hP.freeValue _ ?_)
      obtain heq | ⟨a, n, v, hin, heq⟩ := abandonedWrites_cases i (Config.abandonedPutBytes s.freeUses) s
      · rwa [heq]
      · rw [heq]
        exact hP.store s a n v hin hs

theorem KeptByChanges.step {s t : State} (hs : P s) (h : step s = .next t) : P t := by
  obtain ⟨-, rfl⟩ | ⟨x, rest, -, htake⟩ := step_cases h
  · exact hs
  · exact hP.takeInput (hP.takeOff s rest hs) htake

end KeptByChanges

/-! ## The host's side and the parameter (R33, R36) -/

theorem sameSurroundings_of_workCase {s u : State} {i : Instr} (h : WorkCase s i u) : sameSurroundings s u := by
  cases h <;> exact ⟨rfl, rfl, rfl⟩

theorem cfg_of_workCase {s u : State} {i : Instr} (h : WorkCase s i u) : u.cfg = s.cfg := by
  obtain ⟨-, hcfg, -⟩ := sameSurroundings_of_workCase h
  exact hcfg

theorem cfg_keptByChanges (c : Config) : KeptByChanges fun s => s.cfg = c where
  work _ _ _ h hwork := (cfg_of_workCase hwork).trans h

/-- Settles O47: no change that a step is made of touches the parameter. -/
theorem stepKeepsTheParameter : Obligations.StepKeepsTheParameter :=
  fun s _ h => (cfg_keptByChanges s.cfg).step rfl h

/-! ## The canonical form of memory (R50) -/

theorem memoryInv_reset : MemoryInv State.reset :=
  ⟨⟨List.Pairwise.nil, fun _ => (nomatch ·)⟩, fun _ => (nomatch ·)⟩

theorem memoryInv_memWrite {s : State} (h : MemoryInv s) {a n : Nat} (hin : a + n ≤ s.cfg.memSize) (v : Nat) :
    MemoryInv (memWrite a n v s) := by
  obtain ⟨hwf, hbound⟩ := h
  exact ⟨Memory.wf_writeLE hwf a n v, Memory.bound_writeLE hbound hin v⟩

theorem memoryInv_of_workCase {s u : State} {i : Instr} (hs : MemoryInv s) (h : WorkCase s i u) : MemoryInv u := by
  cases h with
  | stores a v hin => exact memoryInv_memWrite hs hin v.toNat
  | reads | opens | latches | refills | writesCount | clearsErrors => exact hs

theorem memoryInv_keptByChanges : KeptByChanges fun s => MemoryInv s where
  work _ _ _ h hwork := memoryInv_of_workCase h hwork
  store _ _ _ v hin h := memoryInv_memWrite h hin v

/-- Settles O50: memory changes by writes in bounds alone, and each keeps the rising list of non-zero bytes. -/
theorem stepKeepsMemoryCanonical : Obligations.StepKeepsMemoryCanonical :=
  fun _ _ hs h => memoryInv_keptByChanges.step hs h

/-! ## The cursor in its range (R32) -/

theorem sessionInv_of_no_session {s : State} (h : s.act = false) : SessionInv s :=
  fun hact => absurd (h.symm.trans hact) (by decide)

/-- LOAD moves `CUR` down, and no further than `START` (R32, R155). -/
theorem cur_bounds_of_loadMove {s : State} {cur bits : Word64} {bc : Word32} {exh : Bool} (hact : s.act = true)
    (hinv : SessionInv s) (hbc : s.bc.toNat ≤ 64) (h : LoadMove s cur bits bc exh) :
    s.start.toNat ≤ cur.toNat ∧ cur.toNat ≤ s.cur.toNat := by
  obtain ⟨hlow, -⟩ := cur_bounds_of_sessionInv hact hinv
  obtain ⟨rfl, -⟩ | ⟨-, -, -, ⟨-, hfar, -, hcur, -⟩ | ⟨-, -, -, rfl, -⟩ | ⟨-, -, hbytes, hcur, -⟩⟩ := h
  · exact ⟨hlow, le_refl _⟩
  · omega
  · exact ⟨le_refl _, hlow⟩
  · omega

theorem sessionInv_of_workCase {s u : State} {i : Instr} (hs : SessionInv s) (h : WorkCase s i u) : SessionInv u := by
  cases h with
  | opens a e cur w c hlt hle hnormal htail =>
    refine fun _ => ⟨hlt, hle, fun h8 => ?_, fun h7 => (htail h7).1⟩
    obtain ⟨hcur, -⟩ := hnormal h8
    simp only [commitSession_start, commitSession_endAddr, commitSession_cur] at h8 ⊢
    omega
  | refills cur bits bc exh hact hbc hmove =>
    obtain ⟨hlow, hhigh⟩ := cur_bounds_of_loadMove hact hs hbc hmove
    obtain ⟨hlt, hend, hnormal, htail⟩ := hs hact
    refine fun _ => ⟨hlt, hend, fun h8 => ⟨hlow, ?_⟩, fun h7 => BitVec.eq_of_toNat_eq ?_⟩
    · obtain ⟨-, hcur⟩ := hnormal h8
      exact le_trans (Nat.add_le_add_right hhigh 8) hcur
    · have hcur := htail h7
      rw [hcur] at hhigh
      exact le_antisymm hhigh hlow
  | reads | stores | latches | writesCount | clearsErrors => exact hs

theorem sessionInv_keptByChanges : KeptByChanges fun s => SessionInv s where
  work _ _ _ h hwork := sessionInv_of_workCase h hwork
  reset _ _ := sessionInv_of_no_session rfl

/-! ## The overflow latch (R26, R157) -/

theorem overflowInv_reset : OverflowInv State.reset := ⟨(nomatch ·), (nomatch ·)⟩

theorem overflowInv_of_workCase {s u : State} {i : Instr} (hs : OverflowInv s) (h : WorkCase s i u) :
    OverflowInv u := by
  obtain ⟨hlatch, hsession⟩ := hs
  cases h with
  | reads | stores | clearsErrors => exact ⟨hlatch, hsession⟩
  | opens => exact ⟨(nomatch ·), fun _ => rfl⟩
  | latches hact hbc => exact ⟨fun _ => ⟨rfl, hbc⟩, fun _ => hact⟩
  | refills cur bits bc exh hact hbc _ =>
    exact ⟨fun hovf => absurd (hlatch hovf).2 hbc.not_gt, fun _ => hact⟩
  | writesCount v hact hovf => exact ⟨fun h => absurd (hovf.symm.trans h) (by decide), fun _ => hact⟩

theorem overflowInv_keptByChanges : KeptByChanges fun s => OverflowInv s where
  work _ _ _ h hwork := overflowInv_of_workCase h hwork
  reset _ _ := overflowInv_reset

/-! ## The capture registers (R27 to R30) -/

theorem errCode_ne_zero (k : ErrKind) : errCode k ≠ 0 := by
  cases k <;> decide

theorem captureInv_reset : CaptureInv State.reset :=
  ⟨Nat.zero_le 5, fun h => absurd rfl h, fun _ => rfl, fun _ => rfl⟩

theorem captureInv_raise (k : ErrKind) (o : Word64) (r : BitVec 16) (s : State) : CaptureInv (raise k o r s) :=
  ⟨(errCode_bounds k).2, fun _ => errCode_ne_zero k, fun h => recordedOffset_eq_zero h o,
    fun h => absurd h (errCode_ne_zero k)⟩

theorem captureInv_of_workCase {s u : State} {i : Instr} (hs : CaptureInv s) (h : WorkCase s i u) : CaptureInv u := by
  cases h with
  | clearsErrors v =>
    obtain ⟨hkind, hsticky, hoff, hrsn⟩ := hs
    exact ⟨hkind, fun hne => hsticky fun hzero => hne (by simp [hzero]), hoff, hrsn⟩
  | reads | stores | opens | latches | refills | writesCount => exact hs

theorem captureInv_keptByChanges : KeptByChanges fun s => CaptureInv s where
  raise s k o r _ := captureInv_raise k o r s
  work _ _ _ h hwork := captureInv_of_workCase h hwork
  reset _ _ := captureInv_reset

/-! ## The invariant -/

/-- Settles O48: each of the four parts is kept by every change that a step is made of. -/
theorem stepKeepsTheInvariant : Obligations.StepKeepsTheInvariant := by
  intro s t ⟨hmem, hsession, hoverflow, hcapture⟩ h
  exact ⟨memoryInv_keptByChanges.step hmem h, sessionInv_keptByChanges.step hsession h,
    overflowInv_keptByChanges.step hoverflow h, captureInv_keptByChanges.step hcapture h⟩

/-- Settles O49: no byte is listed, no session is open, no flag and no sticky bit is set. -/
theorem resetMeetsTheInvariant : Obligations.ResetMeetsTheInvariant :=
  ⟨memoryInv_reset, sessionInv_of_no_session rfl, overflowInv_reset, captureInv_reset⟩

/-! ## The window as a copy of memory (R24, R61, R214) -/

/-- The bytes of the window lie in the range of the session (R32). -/
theorem window_within_range {s : State} (hact : s.act = true) (hinv : SessionInv s) :
    s.start.toNat ≤ s.cur.toNat ∧
      s.cur.toNat + min 8 (s.endAddr.toNat - s.start.toNat) ≤ s.endAddr.toNat := by
  obtain ⟨hlt, -, hnormal, htail⟩ := hinv hact
  obtain hsize | hsize := Nat.lt_or_ge (s.endAddr.toNat - s.start.toNat) 8
  · rw [htail hsize]
    omega
  · obtain ⟨hlow, hhigh⟩ := hnormal hsize
    omega

theorem holdsBytes_congr {m m' : Memory} {a n : Nat} {w : Word64} (h : holdsBytes m a n w)
    (hm : ∀ x, a ≤ x → x < a + n → m'.read x = m.read x) : holdsBytes m' a n w := by
  intro k hk
  rw [h k hk]
  split
  · rw [hm (a + k) (by omega) (by omega)]
  · rfl

theorem windowMatchesMemory_of_workCase {s u : State} {i : Instr} (hinv : SessionInv s)
    (hs : WindowMatchesMemory s)
    (hstore : ∀ a v, i = .put24le a v → a.toNat + 3 ≤ s.start.toNat ∨ s.endAddr.toNat ≤ a.toNat)
    (h : WorkCase s i u) : WindowMatchesMemory u := by
  cases h with
  | stores a v hin =>
    intro hact
    obtain ⟨hlow, hhigh⟩ := window_within_range (s := s) hact hinv
    have hout := hstore a v rfl
    refine holdsBytes_congr (hs hact) fun x hge hlt => Memory.read_writeLE_of_outside ?_ s.mem v.toNat
    rw [memWrite_cur] at hge hlt
    rw [memWrite_endAddr, memWrite_start] at hlt
    omega
  | opens a e cur w c hlt hle hnormal htail =>
    intro _
    obtain hsize | hsize := Nat.lt_or_ge (e.toNat - a.toNat) 8
    · obtain ⟨rfl, hw⟩ := htail hsize
      simpa [Nat.min_eq_right hsize.le] using hw
    · obtain ⟨hcur, hw⟩ := hnormal hsize
      simpa [Nat.min_eq_left hsize, hcur] using hw
  | refills cur bits bc exh hact _ hmove =>
    obtain ⟨rfl, rfl, -⟩ | ⟨-, rfl, hne, -⟩ := hmove
    · exact hs
    · obtain ⟨-, -, -, htail⟩ := hinv hact
      have hsize : 8 ≤ s.endAddr.toNat - s.start.toNat := Nat.le_of_not_lt fun h7 => hne (htail h7)
      intro _
      simpa [Nat.min_eq_left hsize] using holdsBytes_readLE s.mem cur.toNat (le_refl 8)
  | reads | latches | writesCount | clearsErrors => exact hs

/-- Settles O52: INIT and LOAD fill the window from memory, and no other command writes the window or the range. -/
theorem windowStaysACopyOfMemory : Obligations.WindowStaysACopyOfMemory := by
  intro i s t hinv hs hstore h
  obtain ⟨k, o, r, rfl⟩ | ⟨u, r0, r1, hwork, rfl⟩ := exec_workCases h
  · exact hs
  · have hu : WindowMatchesMemory u := windowMatchesMemory_of_workCase hinv hs hstore hwork
    exact hu

end Sys2Proof.Machine

/-! Proofs about what commands leave unchanged (spec rules R27 to R31, R53, R62, R88, R182): the frame of an error, who
writes the capture registers, the cursor and memory, and the response of a beat. -/

namespace Sys2Proof.Machine

/-! ## The frame of an error (R184) -/

theorem raise_frame (k : ErrKind) (o : Word64) (r : BitVec 16) (s : State) :
    sameCursor s (raise k o r s) ∧ sameFlags s (raise k o r s) ∧ sameMemory s (raise k o r s) ∧
      sameSurroundings s (raise k o r s) :=
  ⟨⟨rfl, rfl, rfl, rfl, rfl⟩, ⟨rfl, rfl, rfl⟩, fun _ => rfl, ⟨rfl, rfl, rfl⟩⟩

/-! ## The response (R88, R182) -/

/-- Settles O40: a beat ends in one `raise` or one `respond`, and neither touches what `FLAGS` shows. -/
theorem everyCommandAnswersOnce : Obligations.EveryCommandAnswersOnce := by
  intro b s
  obtain ⟨t, hrun⟩ := exists_runCommand_eq_next b s
  obtain ⟨k, o, r, rfl⟩ | ⟨i, u, r0, r1, -, hwork, rfl⟩ := runCommand_workCases hrun
  · obtain ⟨-, hcode⟩ := errCode_bounds k
    exact ⟨_, _, hrun, raise_response k o r s, rfl, hcode, rfl⟩
  · obtain ⟨hhost, -⟩ := sameSurroundings_of_workCase hwork
    exact ⟨_, _, hrun, respond_response r0 r1 u, rfl, Nat.zero_le 5, hhost⟩

/-- Settles O41: the one error outside the table is the read of LOAD, which stays in memory during a session. -/
theorem commandsRaiseOnlyTheirKinds : Obligations.CommandsRaiseOnlyTheirKinds := by
  intro i s t r hinv h hr
  obtain ⟨k, o, rsn, rfl, hk | ⟨-, -, -, hbroken⟩⟩ | ⟨u, r0, r1, -, rfl⟩ := exec_cases h
  · cases hr
    exact .inr ⟨k, hk, rfl⟩
  · exact absurd hinv hbroken
  · cases hr
    exact .inl rfl

/-! ## The capture registers (R27 to R30) -/

/-- Work leaves the capture registers, but for the bits of `ERRFLAGS` that a WRREG clears. -/
theorem capture_of_workCase {s u : State} {i : Instr} (h : WorkCase s i u) :
    u.errKind = s.errKind ∧ u.errOff = s.errOff ∧ u.errRsn = s.errRsn ∧
      (u.errFlags = s.errFlags ∨
        ∃ v, i = .wrreg 6 v ∧ ∀ j, u.errFlags.getLsbD j = (s.errFlags.getLsbD j && !v.getLsbD j)) := by
  cases h with
  | clearsErrors v => exact ⟨rfl, rfl, rfl, .inr ⟨v, rfl, getLsbD_errFlags_clearErrFlags v s⟩⟩
  | reads | stores | opens | latches | refills | writesCount => exact ⟨rfl, rfl, rfl, .inl rfl⟩

theorem sameCapture_of_workCase {s u : State} {i : Instr} (h : WorkCase s i u) (hi : ∀ v, i ≠ .wrreg 6 v) :
    sameCapture s u := by
  obtain ⟨hkind, hoff, hrsn, hflags | ⟨v, hv, -⟩⟩ := capture_of_workCase h
  · exact ⟨hflags, hkind, hoff, hrsn⟩
  · exact absurd hv (hi v)

/-- Settles O38: a beat that succeeds has done one kind of work, and only clearing writes a capture register. -/
theorem succeedingCommandsKeepTheCapture : Obligations.SucceedingCommandsKeepTheCapture := by
  intro b s t hrun hsucc
  obtain ⟨k, o, r, rfl⟩ | ⟨i, u, r0, r1, hdec, hwork, rfl⟩ := runCommand_workCases hrun
  · exact absurd hsucc (not_succeeded_raise k o r s)
  · obtain ⟨hkind, hoff, hrsn, hflags | ⟨v, rfl, hbits⟩⟩ := capture_of_workCase hwork
    · exact ⟨hkind, hoff, hrsn, .inl hflags⟩
    · exact ⟨hkind, hoff, hrsn, .inr ⟨v, hdec, hbits⟩⟩

/-- A command beat clears a sticky bit only by a WRREG to `ERRFLAGS` with a 1 there (R27). -/
theorem sticky_cleared_by_wrreg {b : Beat} {s t : State} {j : Nat} (hrun : runCommand b s = .next t)
    (hs : s.errFlags.getLsbD j = true) (ht : t.errFlags.getLsbD j = false) :
    ∃ v, decode b = .ok (.wrreg 6 v) ∧ v.getLsbD j = true := by
  obtain ⟨k, o, r, rfl⟩ | ⟨i, u, r0, r1, hdec, hwork, rfl⟩ := runCommand_workCases hrun
  · rw [getLsbD_errFlags_raise, hs] at ht
    exact absurd ht (by simp)
  · rw [respond_errFlags] at ht
    obtain ⟨-, -, -, hflags | ⟨v, rfl, hbits⟩⟩ := capture_of_workCase hwork
    · rw [hflags, hs] at ht
      exact absurd ht (by simp)
    · rw [hbits, hs] at ht
      exact ⟨v, hdec, by simpa using ht⟩

/-- Settles O39: the host's writes leave `ERRFLAGS`, and a beat clears a bit by WRREG alone. -/
theorem stickyBitsAreClearedByWrregOrReset : Obligations.StickyBitsAreClearedByWrregOrReset := by
  intro x s t j htake hs ht
  obtain ⟨b, rfl, hrun⟩ | ⟨a, v, -, -, rfl⟩ | ⟨rfl, -⟩ | ⟨b, rfl, -⟩ := takeInput_cases htake
  · obtain ⟨v, hdec, hv⟩ := sticky_cleared_by_wrreg hrun hs ht
    exact .inr (.inr ⟨b, v, rfl, hdec, hv⟩)
  · exact absurd (hs.symm.trans ht) (by decide)
  · exact .inl rfl
  · exact .inr (.inl ⟨b, rfl⟩)

/-! ## Memory (R53, R55) -/

/-- Work changes a byte of memory only by PUT24LE, at one of its three addresses. -/
theorem mem_of_workCase {s u : State} {i : Instr} (h : WorkCase s i u) :
    u.mem = s.mem ∨ ∃ a v, i = .put24le a v ∧ a.toNat + 3 ≤ s.cfg.memSize ∧
      ∀ x, x < a.toNat ∨ a.toNat + 3 ≤ x → u.mem.read x = s.mem.read x := by
  cases h with
  | stores a v hin =>
    exact .inr ⟨a, v, rfl, hin, fun _ hx => Memory.read_writeLE_of_outside hx s.mem v.toNat⟩
  | reads | opens | latches | refills | writesCount | clearsErrors => exact .inl rfl

/-- Settles O46: an error stores nothing, and of the kinds of work only PUT24LE does. -/
theorem onlyPut24leWritesMemory : Obligations.OnlyPut24leWritesMemory := by
  intro i s t x h hne
  obtain ⟨k, o, r, rfl⟩ | ⟨u, r0, r1, hwork, rfl⟩ := exec_workCases h
  · exact absurd rfl hne
  · rw [respond_mem] at hne
    obtain hmem | ⟨a, v, rfl, hin, hout⟩ := mem_of_workCase hwork
    · exact absurd (by rw [hmem]) hne
    · have hx : ¬ (x < a.toNat ∨ a.toNat + 3 ≤ x) := fun hx => hne (hout x hx)
      exact ⟨a, v, rfl, by omega, by omega, hin⟩

/-! ## The cursor and the flags (R31) -/

/-- Work writes `START`, `END` and `ACT` only by INIT, `CUR`, `BITS`, `OVF` and `EXH` also by LOAD, and `BC` also by
WRREG. -/
theorem cursor_of_workCase {s u : State} {i : Instr} (h : WorkCase s i u) :
    (∃ a e, i = .init a e) ∨
      (u.start = s.start ∧ u.endAddr = s.endAddr ∧ u.act = s.act) ∧
        (i = .load ∨ (u.cur = s.cur ∧ u.bits = s.bits ∧ u.ovf = s.ovf ∧ u.exh = s.exh) ∧
          (u.bc = s.bc ∨ ∃ v, i = .wrreg 4 v)) := by
  cases h with
  | opens a e => exact .inl ⟨a, e, rfl⟩
  | latches | refills => exact .inr ⟨⟨rfl, rfl, rfl⟩, .inl rfl⟩
  | writesCount v => exact .inr ⟨⟨rfl, rfl, rfl⟩, .inr ⟨⟨rfl, rfl, rfl, rfl⟩, .inr ⟨v, rfl⟩⟩⟩
  | reads | stores | clearsErrors =>
    exact .inr ⟨⟨rfl, rfl, rfl⟩, .inr ⟨⟨rfl, rfl, rfl, rfl⟩, .inl rfl⟩⟩

/-- Settles O45: an error writes none of them, and each kind of work names its writer. -/
theorem cursorIsWrittenOnlyByItsCommands : Obligations.CursorIsWrittenOnlyByItsCommands := by
  intro i s t h
  obtain ⟨k, o, r, rfl⟩ | ⟨u, r0, r1, hwork, rfl⟩ := exec_workCases h
  · simp
  · obtain hinit | ⟨⟨hstart, hend, hact⟩, hload | ⟨⟨hcur, hbits, hovf, hexh⟩, hbc⟩⟩ := cursor_of_workCase hwork
    · exact ⟨fun _ => hinit, fun _ => .inl hinit, fun _ => .inl hinit⟩
    · exact ⟨fun hne => by simp [hstart, hend, hact] at hne, fun _ => .inr hload, fun _ => .inr (.inl hload)⟩
    · exact ⟨fun hne => by simp [hstart, hend, hact] at hne, fun hne => by simp [hcur, hbits, hovf, hexh] at hne,
        fun hne => .inr (.inr (hbc.resolve_left hne))⟩

/-! ## Frames command by command -/

theorem eq_of_workCase_reads {s u : State} {i : Instr} (hi : readsOnly i = true) (h : WorkCase s i u) : u = s := by
  cases h with
  | reads => rfl
  | stores | opens | latches | refills | writesCount | clearsErrors => exact nomatch hi

/-- Settles O42: the work of a reading command is nothing. -/
theorem frameOfReadingCommands : Obligations.FrameOfReadingCommands := by
  intro i s t hi h
  obtain ⟨k, o, r, rfl⟩ | ⟨u, r0, r1, hwork, rfl⟩ := exec_workCases h
  · obtain ⟨hcursor, hflags, hmem, hsurr⟩ := raise_frame k o r s
    exact ⟨hcursor, hflags, hmem, hsurr, fun hsucc => absurd hsucc (not_succeeded_raise k o r s)⟩
  · obtain rfl := eq_of_workCase_reads hi hwork
    exact ⟨⟨rfl, rfl, rfl, rfl, rfl⟩, ⟨rfl, rfl, rfl⟩, fun _ => rfl, ⟨rfl, rfl, rfl⟩, fun _ => ⟨rfl, rfl, rfl, rfl⟩⟩

/-- Settles O43: out of bounds the command takes one error, in bounds it is one write of three bytes. -/
theorem frameOfPut24le : Obligations.FrameOfPut24le := by
  intro a v s t h
  obtain hout | hin := Nat.lt_or_ge s.cfg.memSize (a.toNat + 3)
  · cases (exec_put24le_of_lt hout v).symm.trans h
    obtain ⟨hcursor, hflags, hmem, hsurr⟩ := raise_frame .indexOutOfRange 0 0x0032 s
    exact ⟨fun x _ => hmem x, hcursor, hflags, hsurr, fun hsucc => absurd hsucc (not_succeeded_raise _ _ _ s)⟩
  · cases (exec_put24le_of_le hin v).symm.trans h
    exact ⟨fun x hx => Memory.read_writeLE_of_outside hx s.mem v.toNat, ⟨rfl, rfl, rfl, rfl, rfl⟩, ⟨rfl, rfl, rfl⟩,
      ⟨rfl, rfl, rfl⟩, fun _ => ⟨rfl, rfl, rfl, rfl⟩⟩

theorem init_frame {a e : Word64} {s t : State} (h : exec (.init a e) s = .next t) :
    sameMemory s t ∧ sameSurroundings s t ∧ (succeeded t → sameCapture s t) ∧
      (¬ succeeded t → sameCursor s t ∧ sameFlags s t) := by
  obtain ⟨k, o, r, rfl⟩ | ⟨u, r0, r1, hwork, rfl⟩ := exec_workCases h
  · obtain ⟨hcursor, hflags, hmem, hsurr⟩ := raise_frame k o r s
    exact ⟨hmem, hsurr, fun hsucc => absurd hsucc (not_succeeded_raise k o r s), fun _ => ⟨hcursor, hflags⟩⟩
  · cases hwork with
    | reads hi => exact nomatch hi
    | opens =>
      exact ⟨fun _ => rfl, ⟨rfl, rfl, rfl⟩, fun _ => ⟨rfl, rfl, rfl, rfl⟩,
        fun hfail => absurd (succeeded_respond r0 r1 _) hfail⟩

theorem load_frame {s t : State} (h : exec .load s = .next t) :
    sameMemory s t ∧ sameSurroundings s t ∧ (succeeded t → sameCapture s t) ∧
      t.start = s.start ∧ t.endAddr = s.endAddr ∧ t.act = s.act ∧ (s.ovf = true → t.ovf = true) ∧
      (¬ succeeded t → sameCursor s t ∧ sameFlags s t) := by
  obtain ⟨k, o, r, rfl⟩ | ⟨u, r0, r1, hwork, rfl⟩ := exec_workCases h
  · obtain ⟨hcursor, hflags, hmem, hsurr⟩ := raise_frame k o r s
    exact ⟨hmem, hsurr, fun hsucc => absurd hsucc (not_succeeded_raise k o r s), rfl, rfl, rfl, id,
      fun _ => ⟨hcursor, hflags⟩⟩
  · have hok := succeeded_respond r0 r1 u
    cases hwork with
    | reads hi => exact nomatch hi
    | latches =>
      exact ⟨fun _ => rfl, ⟨rfl, rfl, rfl⟩, fun _ => ⟨rfl, rfl, rfl, rfl⟩, rfl, rfl, rfl, fun _ => rfl,
        fun hfail => absurd hok hfail⟩
    | refills =>
      exact ⟨fun _ => rfl, ⟨rfl, rfl, rfl⟩, fun _ => ⟨rfl, rfl, rfl, rfl⟩, rfl, rfl, rfl, id,
        fun hfail => absurd hok hfail⟩

theorem wrreg_frame {n : Word32} {v : Word64} {s t : State} (h : exec (.wrreg n v) s = .next t) :
    sameMemory s t ∧ sameSurroundings s t ∧ sameFlags s t ∧
      t.start = s.start ∧ t.endAddr = s.endAddr ∧ t.cur = s.cur ∧ t.bits = s.bits ∧ (n ≠ 4 → t.bc = s.bc) ∧
      (succeeded t → n ≠ 6 → sameCapture s t) ∧
      (succeeded t → t.errKind = s.errKind ∧ t.errOff = s.errOff ∧ t.errRsn = s.errRsn) := by
  obtain ⟨k, o, r, rfl⟩ | ⟨u, r0, r1, hwork, rfl⟩ := exec_workCases h
  · obtain ⟨⟨hstart, hend, hcur, hbits, hbc⟩, hflags, hmem, hsurr⟩ := raise_frame k o r s
    have hfail := not_succeeded_raise k o r s
    exact ⟨hmem, hsurr, hflags, hstart, hend, hcur, hbits, fun _ => hbc, fun hsucc => absurd hsucc hfail,
      fun hsucc => absurd hsucc hfail⟩
  · cases hwork with
    | reads hi => exact nomatch hi
    | writesCount =>
      exact ⟨fun _ => rfl, ⟨rfl, rfl, rfl⟩, ⟨rfl, rfl, rfl⟩, rfl, rfl, rfl, rfl, fun hn => absurd rfl hn,
        fun _ _ => ⟨rfl, rfl, rfl, rfl⟩, fun _ => ⟨rfl, rfl, rfl⟩⟩
    | clearsErrors =>
      exact ⟨fun _ => rfl, ⟨rfl, rfl, rfl⟩, ⟨rfl, rfl, rfl⟩, rfl, rfl, rfl, rfl, fun _ => rfl,
        fun _ hn => absurd rfl hn, fun _ => ⟨rfl, rfl, rfl⟩⟩

/-- Settles O44: the frames of the three commands, each by its kinds of work. -/
theorem frameOfCursorCommands : Obligations.FrameOfCursorCommands :=
  fun _ _ => ⟨fun _ _ => init_frame, load_frame, fun _ _ => wrreg_frame⟩

/-! ## Within a session (R32 point 4) -/

theorem cur_of_workCase {s u : State} {i : Instr} (hact : s.act = true) (hinv : SessionInv s)
    (hi : ∀ a e, i ≠ .init a e) (h : WorkCase s i u) : s.start.toNat ≤ u.cur.toNat ∧ u.cur.toNat ≤ s.cur.toNat := by
  obtain ⟨hlow, -⟩ := cur_bounds_of_sessionInv hact hinv
  cases h with
  | opens a e => exact absurd rfl (hi a e)
  | refills cur bits bc exh _ hbc hmove => exact cur_bounds_of_loadMove hact hinv hbc hmove
  | reads | stores | latches | writesCount | clearsErrors => exact ⟨hlow, le_refl _⟩

/-- Settles O51: `CUR` moves by LOAD alone, down to `START` at most, and only INIT writes `START`, `END` and `ACT`. -/
theorem curNeverIncreasesWithinASession : Obligations.CurNeverIncreasesWithinASession := by
  intro i s t hact hinv hi h
  obtain ⟨k, o, r, rfl⟩ | ⟨u, r0, r1, hwork, rfl⟩ := exec_workCases h
  · obtain ⟨hlow, -⟩ := cur_bounds_of_sessionInv hact hinv
    exact ⟨le_refl _, hlow, rfl, rfl, hact⟩
  · obtain ⟨hlow, hhigh⟩ := cur_of_workCase hact hinv hi hwork
    obtain ⟨a, e, hinit⟩ | ⟨⟨hstart, hend, hsame⟩, -⟩ := cursor_of_workCase hwork
    · exact absurd hinit (hi a e)
    · exact ⟨hhigh, hlow, hstart, hend, hsame.trans hact⟩

end Sys2Proof.Machine

/-! Proofs about the stream over memory (spec rules R24, R57, R155 to R159): the count a boundary LOAD leaves, that INIT
and LOAD read inside the range alone, and that a mainline LOAD keeps the position and the bits below it. -/

namespace Sys2Proof.Machine

/-! ## Boundary LOADs (R158) -/

/-- A count rebased by at least as many bytes as it has bits to give wraps below `2^32`, but for 64 bits by one byte. -/
theorem rebased_count_overflows {c : Word32} {b k : Nat} (hb : b ≤ 64) (h1 : 1 ≤ k) (h8 : k ≤ 8)
    (hc : (c.toNat : Int) = ((b : Int) - 64 * (k : Int)) % 2 ^ 32) : 64 < c.toNat ∨ b = 64 ∧ k = 1 ∧ c.toNat = 0 := by
  omega

/-- Settles O29: in both cases the count is rebased by one byte or more, and a count above 64 is case 1 of the next
LOAD. -/
theorem boundaryLoadsLeaveAnOverflowingCount : Obligations.BoundaryLoadsLeaveAnOverflowingCount := by
  intro s t hact hinv h8 h64 hlow hnear h
  obtain ⟨-, -, -, -, hcross, hstay⟩ := (loadFollowsItsCaseTable.2 s).2 hact hinv _ _ rfl rfl
  have hcount : t.act = true ∧
      (64 < t.bc.toNat ∨ s.cur.toNat = s.start.toNat + 1 ∧ s.bc.toNat = 64 ∧ t.bc.toNat = 0) := by
    obtain hbytes | hbytes := Nat.lt_or_ge (s.cur.toNat - s.start.toNat) (s.bc.toNat / 8)
    · obtain ⟨w, c, -, hc, hexec⟩ := hcross h64 (by omega) (by omega) hbytes
      cases hexec.symm.trans h
      refine ⟨hact, (rebased_count_overflows h64 (by omega) (by omega) hc).imp_right fun ⟨hb, hd, hzero⟩ => ?_⟩
      exact ⟨by omega, hb, hzero⟩
    · obtain ⟨cur, w, c, -, -, hc, hexec⟩ := hstay h64 (by omega) (by omega) hbytes
      cases hexec.symm.trans h
      refine ⟨hact, .inl ((rebased_count_overflows h64 (by omega) (by omega) hc).resolve_right fun ⟨hb, hk, _⟩ => ?_)⟩
      omega
  obtain ⟨htact, hover | ⟨hd, hb, hzero⟩⟩ := hcount
  · exact .inr ⟨hover, _, exec_load_latches htact hover, rfl, rfl, _, rfl, rfl⟩
  · exact .inl ⟨hd, BitVec.eq_of_toNat_eq hb, BitVec.eq_of_toNat_eq hzero⟩

/-! ## Reads inside the range (R57, R159) -/

section OtherMemory

variable {s : State} {m : Memory}

theorem reload_withMem {cur : Word64} (h : ∀ x, cur.toNat ≤ x → x < cur.toNat + 8 → m.read x = s.mem.read x)
    (bc : Word32) (exh : Bool) :
    reload cur bc exh { s with mem := m } = { reload cur bc exh s with mem := m } := by
  obtain hout | hin := Nat.lt_or_ge s.cfg.memSize (cur.toNat + 8)
  · rw [reload_of_lt hout, reload_of_lt (s := { s with mem := m }) hout]
    rfl
  · rw [reload_of_le hin, reload_of_le (s := { s with mem := m }) hin, Memory.readLE_congr h]
    rfl

/-- A moving LOAD reads eight bytes from somewhere between `START` and `CUR`. -/
theorem loadMoving_withMem (hlow : s.start.toNat ≤ s.cur.toNat) (hbc : s.bc.toNat ≤ 64)
    (h : ∀ x, s.start.toNat ≤ x → x < s.cur.toNat + 8 → m.read x = s.mem.read x) :
    loadMoving { s with mem := m } = { loadMoving s with mem := m } := by
  have hback (hbytes : s.start.toNat + s.bc.toNat / 8 ≤ s.cur.toNat) (bc : Word32) (exh : Bool) :=
    have hcur : (s.cur - BitVec.ofNat 64 (s.bc.toNat / 8)).toNat = s.cur.toNat - s.bc.toNat / 8 :=
      sub_ofNat_toNat (by omega)
    reload_withMem (cur := s.cur - BitVec.ofNat 64 (s.bc.toNat / 8))
      (fun x hge hlt => h x (by omega) (by omega)) bc exh
  obtain hnear | hfar := Nat.lt_or_ge s.cur.toNat (s.start.toNat + 8)
  · obtain hbytes | hbytes := Nat.lt_or_ge s.cur.toNat (s.start.toNat + s.bc.toNat / 8)
    · rw [loadMoving_of_lt_bytes hlow hnear hbytes,
        loadMoving_of_lt_bytes (s := { s with mem := m }) hlow hnear hbytes]
      exact reload_withMem (fun x hge hlt => h x hge (by omega)) _ true
    · rw [loadMoving_of_bytes_le hnear hbytes, loadMoving_of_bytes_le (s := { s with mem := m }) hnear hbytes]
      exact hback hbytes _ false
  · obtain hfew | h8 := Nat.lt_or_ge s.bc.toNat 8
    · rw [loadMoving_of_bc_lt hfar hfew, loadMoving_of_bc_lt (s := { s with mem := m }) hfar hfew]
      rfl
    · rw [loadMoving_of_le_bc hfar h8, loadMoving_of_le_bc (s := { s with mem := m }) hfar h8]
      exact hback (by omega) _ false

theorem exec_load_withMem {t : State} (hinv : SessionInv s)
    (hm : ∀ x, s.start.toNat ≤ x → x < s.endAddr.toNat → m.read x = s.mem.read x) (h : exec .load s = .next t) :
    exec .load { s with mem := m } = .next { t with mem := m } := by
  by_cases hact : s.act = true
  · obtain hbc | hbc := Nat.lt_or_ge 64 s.bc.toNat
    · cases (exec_load_latches hact hbc).symm.trans h
      exact exec_load_latches (s := { s with mem := m }) hact hbc
    · by_cases hcur : s.cur = s.start
      · cases (exec_load_of_cur_eq_start hact hbc hcur).symm.trans h
        exact exec_load_of_cur_eq_start (s := { s with mem := m }) hact hbc hcur
      · cases (exec_load_of_cur_ne_start hact hbc hcur).symm.trans h
        obtain ⟨hlt, -, hnormal, htail⟩ := hinv hact
        obtain ⟨hlow, hhigh⟩ := hnormal (Nat.le_of_not_lt fun h7 => hcur (htail h7))
        rw [exec_load_of_cur_ne_start (s := { s with mem := m }) hact hbc hcur,
          loadMoving_withMem hlow hbc fun x hge hlt => hm x hge (by omega)]
  · have hnone : s.act = false := Bool.eq_false_iff.2 hact
    cases (exec_load_of_no_session hnone).symm.trans h
    exact exec_load_of_no_session (s := { s with mem := m }) hnone

theorem startSession_withMem {a e : Word64} (h : ∀ x, a.toNat ≤ x → x < e.toNat → m.read x = s.mem.read x)
    (hlt : a.toNat < e.toNat) (last : Byte) :
    startSession a e last { s with mem := m } = { startSession a e last s with mem := m } := by
  unfold startSession
  dsimp only
  split
  · have hcur : (e - 8).toNat = e.toNat - 8 := sub_ofNat_toNat (k := 8) (by omega)
    rw [Memory.readLE_congr fun x hge hx => h x (by omega) (by omega)]
    rfl
  · rw [Memory.readLE_congr fun x hge hx => h x hge (by omega)]
    rfl

theorem exec_init_withMem {a e : Word64} {t : State}
    (hm : ∀ x, a.toNat ≤ x → x < e.toNat → m.read x = s.mem.read x) (h : exec (.init a e) s = .next t) :
    exec (.init a e) { s with mem := m } = .next { t with mem := m } := by
  obtain hempty | hlt := Nat.lt_or_ge a.toNat e.toNat |>.symm
  · cases (exec_init_of_empty hempty).symm.trans h
    exact exec_init_of_empty (s := { s with mem := m }) hempty
  obtain hout | hin := Nat.lt_or_ge s.cfg.memSize e.toNat
  · cases (exec_init_of_beyond hlt hout).symm.trans h
    exact exec_init_of_beyond (s := { s with mem := m }) hlt hout
  have hread : m.read (e.toNat - 1) = s.mem.read (e.toNat - 1) := hm _ (by omega) (by omega)
  by_cases hlast : s.mem.read (e.toNat - 1) = 0
  · cases (exec_init_of_unmarked hlt hin hlast).symm.trans h
    exact exec_init_of_unmarked (s := { s with mem := m }) hlt hin (hread.trans hlast)
  · cases (exec_init_of_marked hlt hin hlast rfl).symm.trans h
    rw [exec_init_of_marked (s := { s with mem := m }) hlt hin (by rwa [hread]) rfl, hread,
      startSession_withMem hm hlt]
    rfl

end OtherMemory

/-- Settles O31: with equal bytes in the range, every row of LOAD and every exit of INIT reads the same. -/
theorem streamReadsStayInsideTheRange : Obligations.StreamReadsStayInsideTheRange :=
  ⟨fun _ _ _ hinv hm h => exec_load_withMem hinv hm h, fun _ _ _ _ _ hm h => exec_init_withMem hm h⟩

/-! ## The mainline LOAD (R24, R155 case 3a) -/

/-- What a mainline LOAD leaves: `CUR` down by the bytes consumed, the bits left over, and a full window. -/
theorem exec_load_mainline {s t : State} (hact : s.act = true) (hinv : SessionInv s)
    (hwin : WindowMatchesMemory s) (hbc : s.bc.toNat ≤ 64) (hfar : s.start.toNat + 8 ≤ s.cur.toNat)
    (h : exec .load s = .next t) :
    t.act = true ∧ t.cur.toNat = s.cur.toNat - s.bc.toNat / 8 ∧ t.bc.toNat = s.bc.toNat % 8 ∧
      holdsBytes s.mem t.cur.toNat 8 t.bits := by
  obtain ⟨-, -, hkeep, hback, -⟩ := (loadFollowsItsCaseTable.2 s).2 hact hinv _ _ rfl rfl
  obtain hfew | h8 := Nat.lt_or_ge s.bc.toNat 8
  · cases (hkeep hfew (by omega)).symm.trans h
    obtain ⟨-, -, -, htail⟩ := hinv hact
    have hsize : 8 ≤ s.endAddr.toNat - s.start.toNat := by
      refine Nat.le_of_not_lt fun h7 => ?_
      rw [htail h7] at hfar
      omega
    have hbits := hwin hact
    rw [Nat.min_eq_left hsize] at hbits
    refine ⟨hact, ?_, (Nat.mod_eq_of_lt hfew).symm, hbits⟩
    rw [Nat.div_eq_of_lt hfew]
    rfl
  · obtain ⟨cur, w, c, hcur, hw, hc, hexec⟩ := hback h8 hbc (by omega)
    cases hexec.symm.trans h
    exact ⟨hact, hcur, hc, hw⟩

/-- PEEKF over a window that holds the bytes at `CUR` answers the bits of memory below the position. -/
theorem peekfValue_getLsbD_streamBit {m : Memory} {t : State} {n j : Nat} (hw : holdsBytes m t.cur.toNat 8 t.bits)
    (hbc : t.bc.toNat < 8) (hn : n ≤ 57) :
    (peekfValue t.bits t.bc.toNat n).getLsbD j =
      (decide (j < n) && streamBit m (streamPosition t - n + j)) := by
  rw [peekfValue_getLsbD t.bits t.bc.toNat (by omega : n ≤ 64) j]
  by_cases hj : j < n
  · have hbit := getLsbD_of_holdsBytes hw (p := 64 + j - (t.bc.toNat + n)) (by omega) (by omega)
    have hpos : 8 * t.cur.toNat + (64 + j - (t.bc.toNat + n)) = streamPosition t - n + j := by
      unfold streamPosition
      omega
    rw [hbit, hpos, decide_eq_true hj, decide_eq_true (show j < n ∧ t.bc.toNat + n ≤ 64 + j by omega)]
  · rw [decide_eq_false hj, decide_eq_false (fun hboth => hj hboth.1), Bool.false_and, Bool.false_and]

/-- Settles O53: `CUR` goes down by as many bytes as the count loses, so the position stays, and the window holds the
bytes around it. -/
theorem mainlineLoadKeepsTheStream : Obligations.MainlineLoadKeepsTheStream := by
  intro s t n hact hinv hwin hbc hfar h
  obtain ⟨htact, hcur, hcount, hw⟩ := exec_load_mainline hact hinv hwin hbc hfar h
  have hpos : streamPosition t = streamPosition s := by
    unfold streamPosition
    omega
  have hrest : t.bc.toNat < 8 := by omega
  refine ⟨hpos, hrest, fun h1 h57 => ?_⟩
  have hops : peekOperands true 0 0 t = some (t.bits, t.bc) := peekOperands_eq true 0 0 t (.inr htact)
  refine ⟨_, exec_peekf_of_le hops (by omega) h1 (by omega), fun j => ?_⟩
  rw [← hpos]
  exact peekfValue_getLsbD_streamBit hw hrest h57

end Sys2Proof.Machine

/-! Proofs about the steps of the host (spec rules R5, R26, R35, R38, R195, R210, R211): the idle step, a write of a
byte, what FLAGS shows, the state after reset, and a reset that abandons a command. -/

namespace Sys2Proof.Machine

/-! ## One step (R5, R195) -/

theorem step_of_host_nil {s : State} (h : s.host = []) : step s = .next s := by
  simp only [step, h]

theorem step_of_host_cons {s : State} {x : HostInput} {rest : List HostInput} (h : s.host = x :: rest) :
    step s = takeInput x { s with host := rest } := by
  simp only [step, h]

/-- Settles O58: the step with an empty list is the idle one. -/
theorem idleEngineHoldsItsState : Obligations.IdleEngineHoldsItsState := fun _ => step_of_host_nil

/-- Settles O7: the step does the first interaction, and a beat that decodes is its command. -/
theorem stepRunsTheDecodedCommand : Obligations.StepRunsTheDecodedCommand := by
  intro s x rest h
  refine ⟨step_of_host_cons h, ?_⟩
  rintro b i rfl hdec
  exact (step_of_host_cons h).trans (runCommand_of_decode_ok hdec _)

/-! ## The host's write (R35, R62) -/

theorem hostWrite_of_lt {a : Word64} {s : State} (h : a.toNat < s.cfg.memSize) (v : Byte) :
    hostWrite a v s = .next { s with mem := s.mem.write a.toNat v } :=
  if_pos ((inBounds_eq_true ..).2 h)

theorem hostWrite_of_le {a : Word64} {s : State} (h : s.cfg.memSize ≤ a.toNat) (v : Byte) :
    hostWrite a v s = .fault (.hostWriteOutsideMemory a) :=
  if_neg (by rw [inBounds_eq_true]; omega)

/-- Settles O57: in memory the write is one `Memory.write`, beyond it the model's fault. -/
theorem hostWritesOneByte : Obligations.HostWritesOneByte := by
  refine fun s a v => ⟨fun hin => ⟨_, hostWrite_of_lt hin v, Memory.read_write_self s.mem a.toNat v, fun x hx => ?_⟩,
    fun hout => hostWrite_of_le hout v⟩
  rw [Memory.read_write, if_neg hx]

/-! ## FLAGS and the reset state (R26, R38) -/

/-- Settles O36: bit by bit. -/
theorem flagsRegisterShowsItsFields : Obligations.FlagsRegisterShowsItsFields :=
  fun s => ⟨flags_bit0 s, flags_bit1 s, flags_bit2 s, by rw [flags_bit3, eosFlag_iff]⟩

/-- Settles O55: the registers by the definition of the reset state, RDREG by `ACT = 0`, and the reset input keeps
memory. -/
theorem resetStateHoldsTheSpecValues : Obligations.ResetStateHoldsTheSpecValues := by
  refine ⟨rfl, rfl, rfl, by decide, rfl, rfl, rfl, rfl, fun n hn => exec_rdreg_cursor_of_no_session hn rfl,
    fun s t h => ?_⟩
  cases h
  exact fun _ => rfl

/-! ## A reset during a command (R211) -/

/-- Whatever the command was, the engine is reset from a state with the same surroundings. -/
theorem exists_resetDuringCommand_eq (b : Beat) (s : State) :
    ∃ u, resetDuringCommand b s = resetEngine u ∧ u.host = s.host ∧ u.cfg = s.cfg := by
  cases hdec : decode b with
  | error x => exact ⟨s, resetDuringCommand_of_error hdec s, rfl, rfl⟩
  | ok i =>
    refine ⟨_, resetDuringCommand_of_ok hdec s, ?_⟩
    rw [useFreeValue_host, useFreeValue_cfg]
    obtain heq | ⟨a, n, v, -, heq⟩ := abandonedWrites_cases i (Config.abandonedPutBytes s.freeUses) s
    · rw [heq]
      exact ⟨rfl, rfl⟩
    · rw [heq]
      exact ⟨rfl, rfl⟩

theorem mem_resetDuringCommand_of_not_stores {b : Beat} {s : State}
    (h : ∀ a v, decode b = .ok (.put24le a v) → s.cfg.memSize < a.toNat + 3) :
    (resetDuringCommand b s).mem = s.mem := by
  cases hdec : decode b with
  | error x => rw [resetDuringCommand_of_error hdec, resetEngine_mem]
  | ok i =>
    rw [resetDuringCommand_of_ok hdec, resetEngine_mem, useFreeValue_mem, abandonedWrites_of_not_stores]
    rintro a v rfl
    exact h a v hdec

theorem mem_resetDuringCommand_of_put24le {b : Beat} {a : Word64} {v : Word32} {s : State}
    (hdec : decode b = .ok (.put24le a v)) (hin : a.toNat + 3 ≤ s.cfg.memSize) :
    (resetDuringCommand b s).mem =
      s.mem.writeLE a.toNat (Config.abandonedPutBytes s.freeUses).val v.toNat := by
  rw [resetDuringCommand_of_ok hdec, resetEngine_mem, useFreeValue_mem, abandonedWrites_of_put24le hin, memWrite_mem]

/-- The first `k` bytes of a value are stored, the rest of memory is as it was (R53). -/
theorem Memory.read_writeLE_extractLsb' (m : Memory) (a k : Nat) (v : Word32) (x : Nat) :
    (m.writeLE a k v.toNat).read x =
      if a ≤ x ∧ x < a + k then v.extractLsb' (8 * (x - a)) 8 else m.read x := by
  split
  · rename_i hx
    obtain ⟨hge, hlt⟩ := hx
    obtain ⟨d, rfl⟩ := Nat.exists_eq_add_of_le hge
    rw [Memory.read_writeLE_byte (by omega), Nat.add_sub_cancel_left]
  · exact Memory.read_writeLE_of_outside (by omega) m v.toNat

theorem resetEngine_registers (s : State) :
    flags (resetEngine s) = 0 ∧ (resetEngine s).errFlags = 0 ∧ (resetEngine s).errKind = 0 ∧
      (resetEngine s).errOff = 0 ∧ (resetEngine s).errRsn = 0 ∧ (resetEngine s).response = none :=
  ⟨flags_resetEngine s, rfl, rfl, rfl, rfl, rfl⟩

/-- Settles O56: the engine is reset, and of the free number of bytes nothing is asked but that it is at most three. -/
theorem resetDuringACommandAbandonsIt : Obligations.ResetDuringACommandAbandonsIt := by
  intro s b
  obtain ⟨u, hu, hhost, hcfg⟩ := exists_resetDuringCommand_eq b s
  obtain ⟨hflags, hsticky, hkind, hoff, hrsn, hresponse⟩ := resetEngine_registers u
  rw [← resetEngine_host u, ← hu] at hhost
  rw [← resetEngine_cfg u, ← hu] at hcfg
  rw [← hu] at hflags hsticky hkind hoff hrsn hresponse
  have hsame (h : ∀ a v, decode b = .ok (.put24le a v) → s.cfg.memSize < a.toNat + 3) :
      sameMemory s (resetDuringCommand b s) := fun x => by rw [mem_resetDuringCommand_of_not_stores h]
  refine ⟨resetDuringCommand b s, rfl, hflags, hsticky, hkind, hoff, hrsn, hresponse, hhost, hcfg,
    fun hnot => hsame fun a v hdec => absurd hdec (hnot a v), fun a v hdec hout => hsame fun a' v' hdec' => ?_,
    fun a v hdec hin => ⟨_, Nat.lt_succ_iff.1 (Config.abandonedPutBytes s.freeUses).isLt, fun x => ?_⟩⟩
  · cases hdec.symm.trans hdec'
    exact hout
  · rw [mem_resetDuringCommand_of_put24le hdec hin, Memory.read_writeLE_extractLsb']

end Sys2Proof.Machine

/-! The proof that nothing shows the cursor registers before a successful INIT (spec rules R31, R38, R210): two
sessionless states that differ in the cursor alone answer every command alike. -/

namespace Sys2Proof.Machine

/-! ## A state with other cursor registers -/

/-- The state with these contents in its five cursor registers. -/
def withCursor (start endAddr cur bits : Word64) (bc : Word32) (s : State) : State :=
  { s with start := start, endAddr := endAddr, cur := cur, bits := bits, bc := bc }

theorem exists_eq_withCursor {s s' : State} (h : agreeButCursor s s') :
    ∃ start endAddr cur bits bc, s' = withCursor start endAddr cur bits bc s := by
  obtain ⟨⟨hact, hovf, hexh⟩, ⟨hflags, hkind, hoff, hrsn⟩, hmem, hresponse, hhost, hcfg, hfree⟩ := h
  refine ⟨s'.start, s'.endAddr, s'.cur, s'.bits, s'.bc, ?_⟩
  rw [withCursor, ← hact, ← hovf, ← hexh, ← hflags, ← hkind, ← hoff, ← hrsn, ← hmem, ← hresponse, ← hhost, ← hcfg,
    ← hfree]

/-- Both commands end, in states that agree but for the cursor, and in the same state if they open a session. -/
def AnswerAlike (o o' : Host.Outcome State Fault Refusal) : Prop :=
  ∃ t t', o = .next t ∧ o' = .next t' ∧ agreeButCursor t t' ∧ (t.act = true → t' = t)

section Sessionless

variable {a e c w : Word64} {b : Word32} {s : State}

/-- Without a session `FLAGS.EOS` is 0 whatever the cursor holds (R26). -/
theorem flags_withCursor (hact : s.act = false) : flags (withCursor a e c w b s) = flags s := by
  simp [flags, eosFlag, withCursor, hact]

theorem answerAlike_of_sessionless {t t' : State} (hact : t.act = false) (h : agreeButCursor t t') :
    AnswerAlike (.next t) (.next t') :=
  ⟨t, t', rfl, rfl, h, fun hopen => absurd (hact.symm.trans hopen) (by decide)⟩

theorem answerAlike_raise (hact : s.act = false) (k : ErrKind) (o : Word64) (r : BitVec 16) :
    AnswerAlike (.next (raise k o r s)) (.next (raise k o r (withCursor a e c w b s))) := by
  refine answerAlike_of_sessionless hact ⟨⟨rfl, rfl, rfl⟩, ⟨rfl, rfl, rfl, rfl⟩, rfl, ?_, ⟨rfl, rfl, rfl⟩⟩
  rw [raise_response, raise_response, flags_withCursor hact]

theorem answerAlike_respond (hact : s.act = false) (r0 r1 : Word64) :
    AnswerAlike (.next (respond r0 r1 s)) (.next (respond r0 r1 (withCursor a e c w b s))) := by
  refine answerAlike_of_sessionless hact ⟨⟨rfl, rfl, rfl⟩, ⟨rfl, rfl, rfl, rfl⟩, rfl, ?_, ⟨rfl, rfl, rfl⟩⟩
  rw [respond_response, respond_response, flags_withCursor hact]

theorem answerAlike_self (t : State) : AnswerAlike (.next t) (.next t) :=
  ⟨t, t, rfl, rfl, ⟨⟨rfl, rfl, rfl⟩, ⟨rfl, rfl, rfl, rfl⟩, rfl, rfl, ⟨rfl, rfl, rfl⟩⟩, fun _ => rfl⟩

/-! ## Commands whose answer is in their operands -/

theorem answerAlike_of_endsUniformly {i : Instr} (hact : s.act = false) (h : EndsUniformly i) :
    AnswerAlike (exec i s) (exec i (withCursor a e c w b s)) := by
  obtain ⟨r0, r1, hexec⟩ | ⟨k, o, r, hexec⟩ := h
  · rw [hexec, hexec]
    exact answerAlike_respond hact r0 r1
  · rw [hexec, hexec]
    exact answerAlike_raise hact k o r

theorem endsUniformly_verify (cond : Bool) (offset : Word64) (reason : BitVec 16) :
    EndsUniformly (.verify cond offset reason) := by
  cases cond with
  | true => exact .inl ⟨_, _, exec_verify_true offset reason⟩
  | false => exact .inr ⟨_, _, _, exec_verify_false offset reason⟩

theorem endsUniformly_chkarg (cond : Bool) (reason : BitVec 16) : EndsUniformly (.chkarg cond reason) := by
  cases cond with
  | true => exact .inl ⟨_, _, exec_chkarg_true reason⟩
  | false => exact .inr ⟨_, _, _, exec_chkarg_false reason⟩

theorem endsUniformly_chkstate (cond : Bool) (reason : BitVec 16) : EndsUniformly (.chkstate cond reason) := by
  cases cond with
  | true => exact .inl ⟨_, _, exec_chkstate_true reason⟩
  | false => exact .inr ⟨_, _, _, exec_chkstate_false reason⟩

theorem endsUniformly_chkpos (start stop size : Word64) : EndsUniformly (.chkpos start stop size) := by
  by_cases hstart : start.toInt < 0 ∨ size.toInt < start.toInt
  · exact .inr ⟨_, _, _, exec_chkpos_of_bad_start hstart⟩
  by_cases hstop : stop.toInt < 0 ∨ size.toInt < stop.toInt ∨ stop.toInt < start.toInt
  · exact .inr ⟨_, _, _, exec_chkpos_of_bad_stop (by omega) (by omega) hstop⟩
  · exact .inl ⟨_, _, exec_chkpos_of_ordered (by omega) (by omega) (by omega)⟩

theorem endsUniformly_peek_explicit (w : Word64) (b n : Word32) : EndsUniformly (.peek false w b n) := by
  obtain hb | hb := Nat.lt_or_ge 63 b.toNat
  · exact .inr ⟨_, _, _, fun _ => (exec_peek_of_some rfl).trans (if_pos hb)⟩
  obtain hn | hn := Nat.lt_or_ge 63 n.toNat
  · exact .inr ⟨_, _, _, fun _ => exec_peek_of_width rfl hb hn⟩
  · exact .inl ⟨_, _, fun _ => exec_peek_of_le rfl hb hn⟩

theorem endsUniformly_peekf_explicit (w : Word64) (b n : Word32) : EndsUniformly (.peekf false w b n) := by
  obtain hb | hb := Nat.lt_or_ge 63 b.toNat
  · exact .inr ⟨_, _, _, fun _ => (exec_peekf_of_some rfl).trans (if_pos hb)⟩
  by_cases hn : n.toNat < 1 ∨ 64 < n.toNat
  · exact .inr ⟨_, _, _, fun _ => exec_peekf_of_width rfl hb hn⟩
  · exact .inl ⟨_, _, fun _ => exec_peekf_of_le rfl hb (by omega) (by omega)⟩

/-! ## Commands that look at memory or at registers -/

theorem answerAlike_get24le (hact : s.act = false) (x : Word64) :
    AnswerAlike (exec (.get24le x) s) (exec (.get24le x) (withCursor a e c w b s)) := by
  obtain hout | hin := Nat.lt_or_ge s.cfg.memSize (x.toNat + 3)
  · rw [exec_get24le_of_lt hout, exec_get24le_of_lt (s := withCursor a e c w b s) hout]
    exact answerAlike_raise hact _ _ _
  · rw [exec_get24le_of_le hin, exec_get24le_of_le (s := withCursor a e c w b s) hin]
    exact answerAlike_respond hact _ _

theorem answerAlike_put24le (hact : s.act = false) (x : Word64) (v : Word32) :
    AnswerAlike (exec (.put24le x v) s) (exec (.put24le x v) (withCursor a e c w b s)) := by
  obtain hout | hin := Nat.lt_or_ge s.cfg.memSize (x.toNat + 3)
  · rw [exec_put24le_of_lt hout, exec_put24le_of_lt (s := withCursor a e c w b s) hout]
    exact answerAlike_raise hact _ _ _
  · rw [exec_put24le_of_le hin, exec_put24le_of_le (s := withCursor a e c w b s) hin]
    exact answerAlike_respond (s := memWrite x.toNat 3 v.toNat s) hact 0 0

theorem startSession_withCursor (start stop : Word64) (last : Byte) :
    startSession start stop last (withCursor a e c w b s) = startSession start stop last s := by
  unfold startSession
  dsimp only
  split <;> rfl

/-- An INIT that succeeds writes all five registers, so nothing is left of what they held (R210). -/
theorem answerAlike_init (hact : s.act = false) (start stop : Word64) :
    AnswerAlike (exec (.init start stop) s) (exec (.init start stop) (withCursor a e c w b s)) := by
  obtain hlt | hempty := Nat.lt_or_ge start.toNat stop.toNat
  · obtain hout | hin := Nat.lt_or_ge s.cfg.memSize stop.toNat
    · rw [exec_init_of_beyond hlt hout, exec_init_of_beyond (s := withCursor a e c w b s) hlt hout]
      exact answerAlike_raise hact _ _ _
    · by_cases hlast : s.mem.read (stop.toNat - 1) = 0
      · rw [exec_init_of_unmarked hlt hin hlast, exec_init_of_unmarked (s := withCursor a e c w b s) hlt hin hlast]
        exact answerAlike_raise hact _ _ _
      · rw [exec_init_of_marked hlt hin hlast rfl,
          exec_init_of_marked (s := withCursor a e c w b s) hlt hin hlast (startSession_withCursor _ _ _)]
        exact answerAlike_self _
  · rw [exec_init_of_empty hempty, exec_init_of_empty (s := withCursor a e c w b s) hempty]
    exact answerAlike_raise hact _ _ _

theorem readReg_withCursor (hact : s.act = false) {r : Reg} (hr : isCursorReg r = false) :
    readReg r (withCursor a e c w b s) = readReg r s := by
  cases r with
  | start | endAddr | cur | bits | bc => exact nomatch hr
  | flags => exact congrArg zext64 (flags_withCursor hact)
  | errFlags | errKind | errOff | errRsn => rfl

theorem answerAlike_rdreg (hact : s.act = false) (n : Word32) :
    AnswerAlike (exec (.rdreg n) s) (exec (.rdreg n) (withCursor a e c w b s)) := by
  cases hreg : regOfNumber n with
  | none =>
    rw [exec_rdreg_of_unnamed hreg, exec_rdreg_of_unnamed hreg]
    exact answerAlike_raise hact _ _ _
  | some r =>
    cases hr : isCursorReg r with
    | true =>
      rw [exec_rdreg_of_no_session hreg hr hact,
        exec_rdreg_of_no_session (s := withCursor a e c w b s) hreg hr hact]
      exact answerAlike_raise hact _ _ _
    | false =>
      have hfree : ¬ isCursorReg r = true := by simp [hr]
      rw [exec_rdreg_of_readable hreg fun h => absurd h hfree, exec_rdreg_of_readable hreg fun h => absurd h hfree,
        readReg_withCursor hact hr]
      exact answerAlike_respond hact _ _

theorem answerAlike_wrreg (hact : s.act = false) (n : Word32) (v : Word64) :
    AnswerAlike (exec (.wrreg n v) s) (exec (.wrreg n v) (withCursor a e c w b s)) := by
  cases hreg : regOfNumber n with
  | none =>
    rw [exec_wrreg_of_unnamed v hreg, exec_wrreg_of_unnamed v hreg]
    exact answerAlike_raise hact _ _ _
  | some r =>
    by_cases hbc : r = .bc
    · obtain rfl := regOfNumber_eq_bc (hbc ▸ hreg)
      rw [exec_wrreg_bc_of_no_session v hact, exec_wrreg_bc_of_no_session (s := withCursor a e c w b s) v hact]
      exact answerAlike_raise hact _ _ _
    by_cases herr : r = .errFlags
    · obtain rfl := regOfNumber_eq_errFlags (herr ▸ hreg)
      rw [exec_wrreg_errFlags, exec_wrreg_errFlags]
      exact answerAlike_respond (s := clearErrFlags (v.setWidth 5) s) hact 0 0
    · rw [exec_wrreg_of_read_only v hreg hbc herr, exec_wrreg_of_read_only v hreg hbc herr]
      exact answerAlike_raise hact _ _ _

/-! ## The cursor forms and LOAD, which need a session -/

theorem answerAlike_peek (hact : s.act = false) (form : Bool) (x : Word64) (count n : Word32) :
    AnswerAlike (exec (.peek form x count n) s) (exec (.peek form x count n) (withCursor a e c w b s)) := by
  cases form with
  | false => exact answerAlike_of_endsUniformly hact (endsUniformly_peek_explicit x count n)
  | true =>
    rw [exec_peek_of_none (peekOperands_none rfl hact),
      exec_peek_of_none (s := withCursor a e c w b s) (peekOperands_none rfl hact)]
    exact answerAlike_raise hact _ _ _

theorem answerAlike_peekf (hact : s.act = false) (form : Bool) (x : Word64) (count n : Word32) :
    AnswerAlike (exec (.peekf form x count n) s) (exec (.peekf form x count n) (withCursor a e c w b s)) := by
  cases form with
  | false => exact answerAlike_of_endsUniformly hact (endsUniformly_peekf_explicit x count n)
  | true =>
    rw [exec_peekf_of_none (peekOperands_none rfl hact),
      exec_peekf_of_none (s := withCursor a e c w b s) (peekOperands_none rfl hact)]
    exact answerAlike_raise hact _ _ _

theorem answerAlike_iseos (hact : s.act = false) (form : Bool) (p q : Word64) (count : Word32) :
    AnswerAlike (exec (.iseos form p q count) s) (exec (.iseos form p q count) (withCursor a e c w b s)) := by
  cases form with
  | false => exact answerAlike_of_endsUniformly hact (.inl ⟨_, _, exec_iseos_explicit p q count⟩)
  | true =>
    rw [exec_iseos_of_no_session p q count hact,
      exec_iseos_of_no_session (s := withCursor a e c w b s) p q count hact]
    exact answerAlike_raise hact _ _ _

theorem answerAlike_load (hact : s.act = false) :
    AnswerAlike (exec .load s) (exec .load (withCursor a e c w b s)) := by
  rw [exec_load_of_no_session hact, exec_load_of_no_session (s := withCursor a e c w b s) hact]
  exact answerAlike_raise hact _ _ _

/-! ## Every command -/

theorem answerAlike_exec (hact : s.act = false) (i : Instr) :
    AnswerAlike (exec i s) (exec i (withCursor a e c w b s)) := by
  cases i with
  | hibit | ispow2 | mask | clamp | cyclelog | mintlog =>
    exact answerAlike_of_endsUniformly hact (endsUniformly_of_isNumeric rfl)
  | get24le x => exact answerAlike_get24le hact x
  | put24le x v => exact answerAlike_put24le hact x v
  | verify cond o r => exact answerAlike_of_endsUniformly hact (endsUniformly_verify cond o r)
  | chkarg cond r => exact answerAlike_of_endsUniformly hact (endsUniformly_chkarg cond r)
  | chkstate cond r => exact answerAlike_of_endsUniformly hact (endsUniformly_chkstate cond r)
  | chkpos x y z => exact answerAlike_of_endsUniformly hact (endsUniformly_chkpos x y z)
  | init x y => exact answerAlike_init hact x y
  | peek form x count n => exact answerAlike_peek hact form x count n
  | peekf form x count n => exact answerAlike_peekf hact form x count n
  | load => exact answerAlike_load hact
  | iseos form p q count => exact answerAlike_iseos hact form p q count
  | rdreg n => exact answerAlike_rdreg hact n
  | wrreg n v => exact answerAlike_wrreg hact n v
  | blkcmp => exact answerAlike_of_endsUniformly hact (.inr ⟨_, _, _, fun _ => rfl⟩)

theorem answerAlike_runCommand (hact : s.act = false) (x : Beat) :
    AnswerAlike (runCommand x s) (runCommand x (withCursor a e c w b s)) := by
  cases hdec : decode x with
  | error y =>
    rw [runCommand_of_decode_error hdec, runCommand_of_decode_error hdec]
    exact answerAlike_raise hact _ _ _
  | ok i =>
    rw [runCommand_of_decode_ok hdec, runCommand_of_decode_ok hdec]
    exact answerAlike_exec hact i

end Sessionless

/-- Settles O59: the second state is the first with another cursor, and no command looks at the cursor without a
session. -/
theorem cursorIsUnobservableBeforeInit : Obligations.CursorIsUnobservableBeforeInit := by
  intro x s s' hact hagree
  obtain ⟨a, e, c, w, b, rfl⟩ := exists_eq_withCursor hagree
  exact answerAlike_runCommand hact x

end Sys2Proof.Machine
